-- ==== Sys2Proof/Word.lean ====
section
/-! DEFINITION. The one word type of the machine: the byte. -/

namespace Sys2Proof

/-- A byte is 8 bits, a value in 0 .. 255 (00_scope.md R8). Cells, opcodes, `SS` and `FVAL` are bytes. -/
abbrev Byte := BitVec 8

end Sys2Proof
end

