-- ==== Sys2Proof/Syntax.lean ====
section
/-! DEFINITION. The instructions: one constructor per row of spec/opcode_table.json (30_encoding.md R72, R73). No
instruction has an operand (R71). -/

namespace Sys2Proof

/-- The seventeen instructions of the byte ISA, in the order of the opcode table. -/
inductive Instr where
  /-- `>` (R111) -/
  | incp
  /-- `<` (R112) -/
  | decp
  /-- `+` (R113) -/
  | inc
  /-- `-` (R114) -/
  | dec
  /-- `.` (R121) -/
  | putchar
  /-- `,` (R122) -/
  | getchar
  /-- `[` (R131) -/
  | loopstart
  /-- `]` (R132) -/
  | loopend
  /-- `#` (R151) -/
  | comment
  /-- LF (R152) -/
  | newline
  /-- TAB (R153) -/
  | wsTab
  /-- CR (R154) -/
  | wsCr
  /-- space (R155) -/
  | wsSp
  /-- `(` (R156) -/
  | push
  /-- `)` (R157) -/
  | pop
  /-- `@` (R158) -/
  | jump
  /-- `&` (R159) -/
  | syscall
  deriving DecidableEq, Repr

end Sys2Proof
end

