-- ==== Sys2Proof/WellFormed.lean ====
section
/-! DEFINITION. Which instructions a configuration recognises. There being no operands, the one check is the gate `EXT`
(30_encoding.md R72, R73; 44_extension.md R150). -/

namespace Sys2Proof

/-- The core set, "recognised in both configurations" (R72). -/
def Instr.isCore : Instr → Bool
  | .incp | .decp | .inc | .dec | .putchar | .getchar | .loopstart | .loopend => true
  | .comment | .newline | .wsTab | .wsCr | .wsSp | .push | .pop | .jump | .syscall => false

/-- `i` belongs to the active set: the core set when `EXT = 0`, both sets when `EXT = 1` (00_scope.md R12). -/
def Instr.wf (ext : Bool) (i : Instr) : Bool :=
  i.isCore || ext

end Sys2Proof
end

