-- ==== Sys2Proof/Decode.lean ====
section
/-! DEFINITION. The decoder and, after it, the encoder. Both are written from the opcode map of 30_encoding.md R72, R73. -/

namespace Sys2Proof

/-- The classes a byte decodes to: a mnemonic, or `INVALID` (30_encoding.md R74). -/
inductive OpClass where
  | instr (i : Instr)
  | invalid
  deriving DecidableEq, Repr

/-- One row of the opcode map. The mask of every row is 0xFF (R71), so the row is its byte. -/
structure OpcodeRow where
  byte : Byte
  instr : Instr
  deriving DecidableEq, Repr

/-- The eight rows of R72. -/
def coreRows : List OpcodeRow :=
  [⟨0x3E, .incp⟩, ⟨0x3C, .decp⟩, ⟨0x2B, .inc⟩, ⟨0x2D, .dec⟩,
   ⟨0x2E, .putchar⟩, ⟨0x2C, .getchar⟩, ⟨0x5B, .loopstart⟩, ⟨0x5D, .loopend⟩]

/-- The nine rows of R73. -/
def extensionRows : List OpcodeRow :=
  [⟨0x23, .comment⟩, ⟨0x0A, .newline⟩, ⟨0x09, .wsTab⟩, ⟨0x0D, .wsCr⟩, ⟨0x20, .wsSp⟩,
   ⟨0x28, .push⟩, ⟨0x29, .pop⟩, ⟨0x40, .jump⟩, ⟨0x26, .syscall⟩]

/-- The rows recognised under `EXT` (R72, R73). -/
def activeRows (ext : Bool) : List OpcodeRow :=
  if ext then coreRows ++ extensionRows else coreRows

/-- `decode(b, EXT)` of R74: the row's mnemonic, or `INVALID`. It depends on nothing but `b` and `EXT`. -/
def decode (ext : Bool) (b : Byte) : OpClass :=
  match (activeRows ext).find? (fun r => r.byte == b) with
  | some r => .instr r.instr
  | none => .invalid

/-- The byte of an instruction, the `byte` column of R72 and R73. -/
def encode : Instr → Byte
  | .incp => 0x3E
  | .decp => 0x3C
  | .inc => 0x2B
  | .dec => 0x2D
  | .putchar => 0x2E
  | .getchar => 0x2C
  | .loopstart => 0x5B
  | .loopend => 0x5D
  | .comment => 0x23
  | .newline => 0x0A
  | .wsTab => 0x09
  | .wsCr => 0x0D
  | .wsSp => 0x20
  | .push => 0x28
  | .pop => 0x29
  | .jump => 0x40
  | .syscall => 0x26

/-- The byte in memory order of a table word: an instruction is exactly one byte (R70), its bits 7 .. 0 of the word; bits
above `nbits` are 0. -/
def tableByte (nbits w : Nat) : Byte :=
  BitVec.ofNat 8 (w % 2 ^ nbits)

/-- What the decoder reads from the word of a table row. The table holds the rows of both sets, so the configuration is
the one that recognises both, `EXT = 1` (log entry 12). -/
def decodeTableWord (nbits w : Nat) : Option Instr :=
  match decode true (tableByte nbits w) with
  | .instr i => some i
  | .invalid => none

end Sys2Proof
end

