-- ==== Sys2Proof/Config.lean ====
section
/-! DEFINITION. What is fixed for one instance: the parameters of 00_scope.md R5, and the one free value of the machine. -/

namespace Sys2Proof

/-- The implementation and launch parameters of 00_scope.md R5, with the values of its table. `PROG`, `OUT_PRESENT` and
`IN_PRESENT` are "per launch"; their defaults are log entries 3 and 4 (DESIGN CHOICE). -/
structure Params where
  /-- `EXT`: extension opcodes enabled -/
  ext : Bool := false
  /-- `MEM_SIZE`: number of cells of data memory -/
  memSize : Nat := 8192
  /-- `PROG`: the program, one byte per source character (10_state.md R35) -/
  prog : List Byte := []
  /-- `PC_W`: width of `PC`, `PCEND`, `BKPT`, `FPC` and of each loop-return-stack entry -/
  pcW : Nat := 16
  /-- `BKT_W`: width of `BKTID` and `BKTCTR` -/
  bktW : Nat := 16
  /-- `STACK_DEPTH`: capacity of the loop-return stack; `none` is `unbounded` -/
  stackDepth : Option Nat := some 65535
  /-- `AT_POSTINC`: what `@` adds to the byte it jumps to, 0 or 1 -/
  atPostinc : Bool := true
  /-- `OUT_PRESENT`: the Output callback slot is set -/
  outPresent : Bool := true
  /-- `IN_PRESENT`: the Input callback slot is set -/
  inPresent : Bool := true
  deriving DecidableEq, Repr

/-- `PROG_LEN` (R5). -/
def Params.progLen (p : Params) : Nat :=
  p.prog.length

/-- `PTR_W`: the smallest w with 2^w >= `MEM_SIZE` (R5). -/
def Params.ptrW (p : Params) : Nat :=
  if p.memSize ≤ 1 then 0 else Nat.log2 (p.memSize - 1) + 1

/-- The `constraint` column of the table of R5. -/
structure Params.Wf (p : Params) : Prop where
  memSize_pos : 1 ≤ p.memSize
  progLen_le : p.progLen ≤ 2 ^ p.pcW - 1
  pcW_pos : 1 ≤ p.pcW
  bktW_pos : 1 ≤ p.bktW
  stackDepth_pos : ∀ d, p.stackDepth = some d → 1 ≤ d

/-- The integer the Input callback returns on its n-th call when the state names no answer: a free value. "The core
places no law on the integer: a model treats it as a free input of the step" (45_host_interface.md R178; log entry 7). -/
opaque Config.inAnswer : Nat → Int

end Sys2Proof
end

