-- ==== Sys2Proof/Machine/State.lean ====
section
/-! DEFINITION. The state of one instance (10_state.md R20), the ways the MODEL stops, and the state after reset. -/

namespace Sys2Proof.Machine

/-- `MODE`, the six states of the engine (10_state.md R21); codes 6 and 7 never occur, so they are not represented. -/
inductive Mode where
  | uninitialized
  | ready
  | running
  | halted
  | faulted
  | breakpointHit
  deriving DecidableEq, Repr

/-- `FCAUSE`, the causes of 60_exceptions.md R191. -/
inductive Cause where
  /-- the value of `FCAUSE` after `INIT` -/
  | none
  /-- never raised in this hardware (R192) -/
  | initializationFault
  /-- raised by the decode phase (R193) -/
  | invalidInstruction
  /-- raised by an executed `]` (R194) -/
  | loopStackUnderflow
  /-- raised by an executed `>` or `<` (R195) -/
  | pointerRange
  /-- raised by an executed `@` (R198) -/
  | jumpRange
  /-- raised by an executed `[` (R196) -/
  | depthOverflow
  /-- raised by an executed `[` (R197) -/
  | stackOverflow
  deriving DecidableEq, Repr

/-- What a command returns to the host (45_host_interface.md R172; `success` is the result of `INIT`,
70_reset_and_hazards.md R231). -/
inductive Result where
  /-- `Continue`: one byte was fetched and stepped over or executed -/
  | cont
  /-- `Halt`: `PC = PCEND`, nothing executed -/
  | halt
  /-- `Break(pc)`: the breakpoint test fired at `pc`, nothing executed -/
  | brk (pc : Nat)
  /-- `Fault(cause, pc, byte)` -/
  | fault (cause : Cause) (pc : Nat) (byte : Byte)
  /-- `Refused`: `STEP` or `RUN` in `MODE = Uninitialized` -/
  | refused
  /-- what `INIT` returns -/
  | success
  deriving DecidableEq, Repr

/-- The data memory: the cells that do not hold `Memory.unlisted`, by strictly rising address. -/
abbrev Memory := List Host.Cell

/-- What an unlisted cell reads as: "all cells start at zero" (10_state.md R34). -/
abbrev Memory.unlisted : Byte := 0

/-- What the host may read of the core, between commands (45_host_interface.md R180) and during a callback
(20_memory.md R65): every register, the `LRS` and the memory. The number of cells says which addresses can be read. -/
structure View where
  memSize : Nat
  mode : Mode
  pc : Nat
  pcend : Nat
  ptr : Nat
  bkpt : Nat
  bkptEn : Bool
  bktid : Nat
  bktctr : Nat
  comt : Bool
  ss : Byte
  fcause : Cause
  fpc : Nat
  fval : Byte
  lrs : List Nat
  mem : Memory
  deriving DecidableEq, Repr

/-- The I/O events the core issues to the host (45_host_interface.md R177, R178): `out b seen` is one call of the Output
callback with `b`, `input i seen` one call of the Input callback that returned `i`. `seen` is the core as it stands during
the call, which is what the host can read in the callback (20_memory.md R65; log entry 13). -/
inductive Event where
  | out (b : Byte) (seen : View)
  | input (i : Int) (seen : View)
  deriving DecidableEq, Repr

/-- The MODEL's own fields, no state of the core: what passes between the core and the host (log entries 7, 8). -/
structure Port where
  /-- the integers the Input callback will return, next one first; past its end the answers are free values -/
  answers : List Int
  /-- how many times the Input callback has been called -/
  inCalls : Nat
  /-- the events so far, oldest first -/
  events : List Event
  /-- what the last command returned -/
  result : Result
  deriving DecidableEq, Repr

/-- The complete state of one instance (10_state.md R20), with the parameters it was built with (00_scope.md R5; no
instruction and no command changes them) and the model's port. Registers whose width is a parameter are Nat; their
widths are clauses of the invariant `State.Inv` (log entry 1). -/
structure State where
  /-- the parameters (00_scope.md R5) -/
  params : Params
  /-- `MODE` (R21) -/
  mode : Mode
  /-- `PC`, `PC_W` bits (R22) -/
  pc : Nat
  /-- `PCEND`, `PC_W` bits (R23) -/
  pcend : Nat
  /-- `PTR`, `PTR_W` bits (R24) -/
  ptr : Nat
  /-- `BKPT`, `PC_W` bits (R25) -/
  bkpt : Nat
  /-- `BKPT_EN`, 1 bit (R25) -/
  bkptEn : Bool
  /-- `BKTID`, `BKT_W` bits (R26) -/
  bktid : Nat
  /-- `BKTCTR`, `BKT_W` bits (R27) -/
  bktctr : Nat
  /-- `COMT`, 1 bit (R28) -/
  comt : Bool
  /-- `SS`, 8 bits (R29) -/
  ss : Byte
  /-- `FCAUSE` (R30) -/
  fcause : Cause
  /-- `FPC`, `PC_W` bits (R30) -/
  fpc : Nat
  /-- `FVAL`, 8 bits (R30) -/
  fval : Byte
  /-- `LRS`, top entry first (R33) -/
  lrs : List Nat
  /-- `MEM` (R34) -/
  mem : Memory
  /-- the model's own fields -/
  port : Port
  deriving DecidableEq, Repr

/-- The ways the MODEL stops. Every fault of 60_exceptions.md is a next state with `MODE = Faulted`; these two are the
`stuck` rows of 93_implementation_defined.md, and no state reached from `INIT` meets them. -/
inductive Fault where
  /-- raised by the fetch of a step at `PC` outside `0 .. PCEND` or outside `PROG`: "must treat the fetch there as having
  no step (stuck)" (20_memory.md R52; log entry 10). Safe. -/
  | fetchOutsideProgram
  /-- raised by an instruction that reads or writes the current cell when `PTR` is outside `MEM`: "for a model that admits
  such states they are `stuck`" (93_implementation_defined.md I4; log entry 11). Safe. -/
  | dataOutsideMemory
  deriving DecidableEq, Repr

/-- What the model refuses. No instruction is refused. -/
inductive Refusal where
  /-- an instruction without a meaning; no arm of `exec` answers it. Safe. -/
  | notModelled (mnemonic : String)
  /-- raised by the command `SET_BKPT(a)` when `a` is no `PC_W`-bit value, which the host cannot send
  (45_host_interface.md R176; log entry 14). Safe. -/
  | breakpointTooWide
  deriving DecidableEq, Repr

/-- What one step, or one instruction, answers. `Refused`, `Halt`, `Break` and `Fault` are results of a next state (log
entry 18). -/
abbrev Out := Host.Outcome State Fault Refusal

/-- The machine right after reset: power-on with the default parameters and no program, then `INIT`
(70_reset_and_hazards.md R230, R231; log entries 3, 4, 5, 7, 8). -/
def State.reset : State where
  params := {}
  mode := .ready
  pc := 0
  pcend := 0
  ptr := 0
  bkpt := 0
  bkptEn := false
  bktid := 0
  bktctr := 0
  comt := false
  ss := 0
  fcause := .none
  fpc := 0
  fval := 0
  lrs := []
  mem := []
  port := { answers := [], inCalls := 0, events := [], result := .success }

end Sys2Proof.Machine
end

