-- ==== Sys2Proof/Machine/Ops.lean ====
section
/-! DEFINITION. The named operations over memory, registers, the loop-return stack, the host's port, and fault entry. -/

namespace Sys2Proof.Machine

/-- The 3-bit code of `MODE` (10_state.md R21). -/
def Mode.code : Mode → BitVec 3
  | .uninitialized => 0
  | .ready => 1
  | .running => 2
  | .halted => 3
  | .faulted => 4
  | .breakpointHit => 5

/-- The 3-bit code of `FCAUSE` (60_exceptions.md R191). -/
def Cause.code : Cause → BitVec 3
  | .none => 0
  | .initializationFault => 1
  | .invalidInstruction => 2
  | .loopStackUnderflow => 3
  | .pointerRange => 4
  | .jumpRange => 5
  | .depthOverflow => 6
  | .stackOverflow => 7

/-- `wrap8(i)`, `i mod 256` with the non-negative remainder (00_scope.md R8, R9). -/
def wrap8 (i : Int) : Byte :=
  BitVec.ofInt 8 i

/-- The byte at one address of the data memory. -/
def Memory.read : Memory → Nat → Byte
  | [], _ => Memory.unlisted
  | c :: m, a => if c.1 = a then c.2 else Memory.read m a

/-- A cell in front of a memory; a cell that reads as an unlisted one is not listed. -/
def Memory.cons (a : Nat) (v : Byte) (m : Memory) : Memory :=
  if v = Memory.unlisted then m else (a, v) :: m

/-- The memory with one byte replaced, in canonical form. -/
def Memory.write : Memory → Nat → Byte → Memory
  | [], a, v => Memory.cons a v []
  | c :: m, a, v =>
    if a < c.1 then Memory.cons a v (c :: m)
    else if a = c.1 then Memory.cons a v m
    else c :: Memory.write m a v

/-- The canonical form: addresses strictly rising, no entry equal to what an unlisted address reads as. -/
def Memory.wf : Memory → Bool
  | [] => true
  | c :: m => c.2 != Memory.unlisted && m.all (fun d => decide (c.1 < d.1)) && Memory.wf m

/-- `MemRead(a, 1)`, for `0 <= a < MEM_SIZE` (20_memory.md R53). -/
def memRead (s : State) (a : Nat) : Option Byte :=
  if a < s.params.memSize then some (Memory.read s.mem a) else none

/-- `MemWrite(a, 1, v)`, for `0 <= a < MEM_SIZE` (20_memory.md R54). -/
def memWrite (s : State) (a : Nat) (v : Byte) : Option State :=
  if a < s.params.memSize then some { s with mem := Memory.write s.mem a v } else none

/-- `ProgRead(a)`, for `0 <= a < PROG_LEN` (20_memory.md R52). -/
def progRead (s : State) (a : Nat) : Option Byte :=
  s.params.prog[a]?

/-- `LRS.push(a)` (10_state.md R33). -/
def lrsPush (s : State) (a : Nat) : State :=
  { s with lrs := a :: s.lrs }

/-- `LRS.pop()`: the most recently pushed address and the state without it; `none` when `LRS.empty` (10_state.md R33). -/
def lrsPop (s : State) : Option (Nat × State) :=
  match s.lrs with
  | [] => none
  | a :: rest => some (a, { s with lrs := rest })

/-- `LRS.depth = STACK_DEPTH` (43_loops.md R131); never true of an `unbounded` stack (00_scope.md R6). -/
def lrsFull (s : State) : Bool :=
  s.params.stackDepth == some s.lrs.length

/-- The greatest value of `BKTID`, `2^BKT_W - 1` (43_loops.md R131). -/
def bktMax (s : State) : Nat :=
  2 ^ s.params.bktW - 1

/-- `(BKTID - 1) mod 2^BKT_W` (43_loops.md R132). -/
def bktPred (s : State) : Nat :=
  (((s.bktid : Int) - 1) % ((2 ^ s.params.bktW : Nat) : Int)).toNat

/-- `result <- r` (00_scope.md R9). -/
def withResult (s : State) (r : Result) : State :=
  { s with port := { s.port with result := r } }

/-- The commit of a step whose next `PC` is `t`: `PC`, `MODE <- Running`, `result <- Continue` (40_sequencer.md R99, R100). -/
def commit (s : State) (t : Nat) : State :=
  withResult { s with pc := t, mode := .running } .cont

/-- The commit of a step that assigns no `pc`: "advances `PC` by one" (40_sequencer.md R99). -/
def advance (s : State) : State :=
  commit s (s.pc + 1)

/-- Fault entry, `raise X(pc, b)`: `FCAUSE`, `FPC`, `FVAL`, `MODE <- Faulted`, `result <- Fault`, and only these. It is
applied to the state at the start of the step, so every other write of the step is dropped (60_exceptions.md R205). The
way back from it is the command `INIT` (R208), `Sys2Proof.Machine.init`. -/
def raise (x : Cause) (pc : Nat) (b : Byte) (s : State) : State :=
  withResult { s with fcause := x, fpc := pc, fval := b, mode := .faulted } (.fault x pc b)

/-- What the host may read of the core in state `s` (20_memory.md R65, 45_host_interface.md R180). -/
def State.view (s : State) : View where
  memSize := s.params.memSize
  mode := s.mode
  pc := s.pc
  pcend := s.pcend
  ptr := s.ptr
  bkpt := s.bkpt
  bkptEn := s.bkptEn
  bktid := s.bktid
  bktctr := s.bktctr
  comt := s.comt
  ss := s.ss
  fcause := s.fcause
  fpc := s.fpc
  fval := s.fval
  lrs := s.lrs
  mem := s.mem

/-- What the host may read during the callback of an event (20_memory.md R65). -/
def Event.seen : Event → View
  | .out _ seen => seen
  | .input _ seen => seen

/-- `if OUT_PRESENT = 1 then Out(v)`: one event, during which the host sees the state the callback is called in, and the
integer the callback returns is discarded (42_io.md R121, 45_host_interface.md R177, 20_memory.md R65). -/
def callOut (v : Byte) (s : State) : State :=
  if s.params.outPresent then
    { s with port := { s.port with events := s.port.events ++ [.out v s.view] } }
  else s

/-- The integer the next call of the Input callback returns: the host's next answer, or a free value where the state
names none (45_host_interface.md R178; log entry 7). -/
def nextAnswer (s : State) : Int :=
  match s.port.answers with
  | i :: _ => i
  | [] => Config.inAnswer s.port.inCalls

/-- `if IN_PRESENT = 1 then i <- In() else i <- 0` (42_io.md R122): the integer, and the state in which the host has
answered. During the call the host sees the state it is called in (20_memory.md R65). -/
def callIn (s : State) : Int × State :=
  if s.params.inPresent then
    (nextAnswer s,
      { s with port := { s.port with
          answers := s.port.answers.tail
          inCalls := s.port.inCalls + 1
          events := s.port.events ++ [.input (nextAnswer s) s.view] } })
  else (0, s)

end Sys2Proof.Machine
end

