-- ==== Sys2Proof/Machine/Operands.lean ====
section
/-! DEFINITION. The operand forms. An instruction has no written operand (30_encoding.md R71); the one memory operand is
the implicit current cell, `MEM[PTR]` (00_scope.md R12). -/

namespace Sys2Proof.Machine

/-- `v <- MemRead(PTR, 1)`, then `k v`. Outside the memory there is no step (log entry 11). -/
def withCell (s : State) (k : Byte → Out) : Out :=
  match memRead s s.ptr with
  | some v => k v
  | none => .fault .dataOutsideMemory

/-- `MemWrite(PTR, 1, v)` as the last write of an instruction that assigns no `pc`. Outside the memory there is no step
(log entry 11). -/
def storeCell (s : State) (v : Byte) : Out :=
  match memWrite s s.ptr v with
  | some t => .next (advance t)
  | none => .fault .dataOutsideMemory

end Sys2Proof.Machine
end

