-- ==== Sys2Proof/Machine/Extension.lean ====
section
/-! DEFINITION. The extension instructions (44_extension.md). The gate `EXT` stands in the decoder (R150; log entry 9). -/

namespace Sys2Proof.Machine

/-- `COMMENT`, `#` (R151). -/
def execComment (s : State) : Out :=
  .next (advance { s with comt := true })

/-- `NEWLINE`, LF (R152). -/
def execNewline (s : State) : Out :=
  .next (advance { s with comt := false })

/-- `WS_TAB`, TAB: no write (R153). -/
def execWsTab (s : State) : Out :=
  .next (advance s)

/-- `WS_CR`, CR: no write (R154). -/
def execWsCr (s : State) : Out :=
  .next (advance s)

/-- `WS_SP`, space: no write (R155). -/
def execWsSp (s : State) : Out :=
  .next (advance s)

/-- `PUSH`, `(`: no write, a defined no-op (R156; 90_conflicts.md C6). -/
def execPush (s : State) : Out :=
  .next (advance s)

/-- `POP`, `)`: `SS` is loaded from the current cell (R157). -/
def execPop (s : State) : Out :=
  withCell s fun v => .next (advance { s with ss := v })

/-- The target of `@`: `zext(MEM[PTR]) + AT_POSTINC`, computed without wrap (R158). -/
def jumpTarget (s : State) (v : Byte) : Nat :=
  v.toNat + s.params.atPostinc.toNat

/-- `JUMP`, `@` (R158). -/
def execJump (s : State) : Out :=
  withCell s fun v =>
    if s.pcend < jumpTarget s v then .next (raise .jumpRange s.pc 0x40 s)
    else .next (commit s (jumpTarget s v))

/-- `SYSCALL`, `&`: no write, and it calls no callback (R159). -/
def execSyscall (s : State) : Out :=
  .next (advance s)

end Sys2Proof.Machine
end

