-- ==== Sys2Proof/Machine/InputOutput.lean ====
section
/-! DEFINITION. The input and output instructions (42_io.md). -/

namespace Sys2Proof.Machine

/-- `PUTCHAR`, `.` (R121). -/
def execPutchar (s : State) : Out :=
  withCell s fun v => .next (advance (callOut v s))

/-- `GETCHAR`, `,` (R122). -/
def execGetchar (s : State) : Out :=
  storeCell (callIn s).2 (wrap8 (callIn s).1)

end Sys2Proof.Machine
end

