-- ==== Sys2Proof/Machine/Flags.lean ====
section
/-! DEFINITION. The conditions the machine tests. There are no arithmetic condition codes (10_state.md R32). -/

namespace Sys2Proof.Machine

/-- "Current cell is zero", of the byte read from it (10_state.md R32 (a)). -/
def cellIsZero (v : Byte) : Bool :=
  v == 0

/-- Comment mode as the comment filter tests it: `EXT = 1` and `COMT = 1` (40_sequencer.md R95). -/
def inComment (s : State) : Bool :=
  s.params.ext && s.comt

/-- Skip mode: `BKTCTR > 0` (10_state.md R27, R32). -/
def inSkip (s : State) : Bool :=
  decide (0 < s.bktctr)

end Sys2Proof.Machine
end

