-- ==== Sys2Proof/Machine/Loops.lean ====
section
/-! DEFINITION. The loop instructions (43_loops.md). -/

namespace Sys2Proof.Machine

/-- `LOOPSTART`, `[` (R131). -/
def execLoopstart (s : State) : Out :=
  if s.bktid = bktMax s then .next (raise .depthOverflow s.pc 0x5B s)
  else withCell s fun v =>
    if cellIsZero v then .next (advance { s with bktid := s.bktid + 1, bktctr := s.bktid + 1 })
    else if lrsFull s then .next (raise .stackOverflow s.pc 0x5B s)
    else .next (advance (lrsPush { s with bktid := s.bktid + 1 } s.pc))

/-- `LOOPEND`, `]` (R132). -/
def execLoopend (s : State) : Out :=
  match lrsPop s with
  | none => .next (raise .loopStackUnderflow s.pc 0x5D s)
  | some (a, t) => withCell s fun v =>
    if cellIsZero v then .next (advance { t with bktid := bktPred s })
    else .next (commit { t with bktid := bktPred s } a)

end Sys2Proof.Machine
end

