-- ==== Sys2Proof/Machine/PointerCell.lean ====
section
/-! DEFINITION. The pointer and cell instructions (41_pointer_and_cell.md). -/

namespace Sys2Proof.Machine

/-- `INCP`, `>` (R111). -/
def execIncp (s : State) : Out :=
  if s.ptr = s.params.memSize - 1 then .next (raise .pointerRange s.pc 0x3E s)
  else .next (advance { s with ptr := s.ptr + 1 })

/-- `DECP`, `<` (R112). -/
def execDecp (s : State) : Out :=
  if s.ptr = 0 then .next (raise .pointerRange s.pc 0x3C s)
  else .next (advance { s with ptr := s.ptr - 1 })

/-- `INC`, `+` (R113). -/
def execInc (s : State) : Out :=
  withCell s fun v => storeCell s (wrap8 ((v.toNat : Int) + 1))

/-- `DEC`, `-` (R114). -/
def execDec (s : State) : Out :=
  withCell s fun v => storeCell s (wrap8 ((v.toNat : Int) - 1))

end Sys2Proof.Machine
end

