-- ==== Sys2Proof/Machine/Dispatch.lean ====
section
/-! DEFINITION. Phases 8 and 9 of a step, execute and commit (40_sequencer.md R98 to R100), instruction by instruction. -/

namespace Sys2Proof.Machine

def exec (i : Instr) (s : State) : Host.Outcome State Fault Refusal :=
  match i with
  | .incp => Sys2Proof.Machine.execIncp s
  | .decp => Sys2Proof.Machine.execDecp s
  | .inc => Sys2Proof.Machine.execInc s
  | .dec => Sys2Proof.Machine.execDec s
  | .putchar => Sys2Proof.Machine.execPutchar s
  | .getchar => Sys2Proof.Machine.execGetchar s
  | .loopstart => Sys2Proof.Machine.execLoopstart s
  | .loopend => Sys2Proof.Machine.execLoopend s
  | .comment => Sys2Proof.Machine.execComment s
  | .newline => Sys2Proof.Machine.execNewline s
  | .wsTab => Sys2Proof.Machine.execWsTab s
  | .wsCr => Sys2Proof.Machine.execWsCr s
  | .wsSp => Sys2Proof.Machine.execWsSp s
  | .push => Sys2Proof.Machine.execPush s
  | .pop => Sys2Proof.Machine.execPop s
  | .jump => Sys2Proof.Machine.execJump s
  | .syscall => Sys2Proof.Machine.execSyscall s

end Sys2Proof.Machine
end

