-- ==== Sys2Proof/Machine/Sequencer.lean ====
section
/-! DEFINITION. The phases of `STEP` but the instructions themselves (40_sequencer.md R90 to R97), and how a program is
placed where the next step fetches. A phase answers `some t` where it ends the step with the state `t`. -/

namespace Sys2Proof.Machine

/-- Phase 1, the mode gate (R91). -/
def modeGate (s : State) : Option State :=
  match s.mode with
  | .uninitialized => some (withResult s .refused)
  | .faulted => some (withResult s (.fault s.fcause s.fpc s.fval))
  | .ready | .running | .halted | .breakpointHit => none

/-- Phase 2, the halt test (R92). -/
def haltTest (s : State) : Option State :=
  if s.pc = s.pcend then some (withResult { s with mode := .halted } .halt) else none

/-- Phase 3, the breakpoint test (R93). -/
def breakpointTest (s : State) : Option State :=
  if s.bkptEn = true ∧ s.pc = s.bkpt ∧ s.mode ≠ .breakpointHit then
    some (withResult { s with mode := .breakpointHit } (.brk s.pc))
  else none

/-- Phase 4, the fetch (R94). At `PC > PCEND`, or where `PROG` has no byte, there is no step (20_memory.md R52; log
entry 10). -/
def fetch (s : State) : Option Byte :=
  if s.pc < s.pcend then progRead s s.pc else none

/-- Phase 5, the comment filter (R95): the byte is not decoded. -/
def commentFilter (b : Byte) (s : State) : Option State :=
  if inComment s then
    some (advance (if b = 0x0A then { s with comt := false } else s))
  else none

/-- Phase 7, the skip filter (R97): only `]` has an effect. -/
def skipFilter (i : Instr) (s : State) : Option State :=
  if inSkip s then
    some (advance (if i = .loopend then { s with bktctr := s.bktctr - 1 } else s))
  else none

/-- Phases 5 to 9 on the fetched byte `b`; `ex` is phases 8 and 9, and phase 6 is the decode with its fault (R95 to R98). -/
def stepByte (ex : Instr → State → Out) (b : Byte) (s : State) : Out :=
  match commentFilter b s with
  | some t => .next t
  | none =>
    match decode s.params.ext b with
    | .invalid => .next (raise .invalidInstruction s.pc b s)
    | .instr i =>
      match skipFilter i s with
      | some t => .next t
      | none => ex i s

/-- Phases 1 to 3, in their order (R90). -/
def beforeFetch (s : State) : Option State :=
  match modeGate s with
  | some t => some t
  | none =>
    match haltTest s with
    | some t => some t
    | none => breakpointTest s

/-- `STEP` (R90): the phases in their order, stopping at the first that produces a result. -/
def stepWith (ex : Instr → State → Out) (s : State) : Out :=
  match beforeFetch s with
  | some t => .next t
  | none =>
    match fetch s with
    | none => .fault .fetchOutsideProgram
    | some b => stepByte ex b s

/-- A program with byte `b` at address `a`, padded with zero bytes where it did not reach so far. -/
def progPut (prog : List Byte) (a : Nat) (b : Byte) : List Byte :=
  prog.take a ++ List.replicate (a - prog.length) 0 ++ b :: prog.drop (a + 1)

/-- The mode in which the next step fetches: any mode but the two that the mode gate stops on, which become `Ready`. -/
def fetchingMode : Mode → Mode
  | .uninitialized | .faulted => .ready
  | .ready => .ready
  | .running => .running
  | .halted => .halted
  | .breakpointHit => .breakpointHit

/-- `s` with the byte `b` where the next step fetches, and with what that step needs to decode and execute it: `PCEND` at
the program's length, `EXT` if `b` is a byte of the extension set, and no gate, breakpoint, comment or skip region in
front of it. On `State.reset` it changes `PROG`, `PCEND` and `EXT` only (log entry 4). -/
def placeByte (b : Byte) (s : State) : State :=
  { s with
    params := { s.params with
      prog := progPut s.params.prog s.pc b
      ext := s.params.ext || (decode false b == .invalid && decode true b != .invalid) }
    pcend := (progPut s.params.prog s.pc b).length
    mode := fetchingMode s.mode
    bkptEn := s.bkptEn && s.bkpt != s.pc
    comt := false
    bktctr := 0 }

end Sys2Proof.Machine
end

