-- ==== Sys2Proof/Machine/Step.lean ====
section
/-! DEFINITION. The step of the machine: the command `STEP` (40_sequencer.md R90). -/

namespace Sys2Proof.Machine

/-- The command `STEP`, "single-instruction advance" (45_host_interface.md R173). -/
def step (s : State) : Host.Outcome State Fault Refusal :=
  stepWith exec s

/-- `s` with the instruction of a table word where `step` fetches its next instruction. -/
def State.withFetchWord (s : State) (nbits w : Nat) : State :=
  placeByte (tableByte nbits w) s

end Sys2Proof.Machine
end

