-- ==== Sys2Proof/Machine/Command.lean ====
section
/-! DEFINITION. The host interface (45_host_interface.md): power-on, construction, the five commands, and the debug read. -/

namespace Sys2Proof.Machine

/-- Power-on (70_reset_and_hazards.md R230): `MODE`, `MEM` and `BKPT_EN` are set; every other register and the `LRS` are
unspecified, so they are those of an arbitrary state `u` (log entry 6). -/
def powerOn (p : Params) (u : State) : State :=
  { u with params := p, mode := .uninitialized, mem := [], bkptEn := false }

/-- `INIT` (70_reset_and_hazards.md R231), the source's `initialize()` and `reset()` (R232). It leaves `BKPT`, `BKPT_EN`
and the parameters alone (R233), and with them what the host has still to answer and the events so far (log entry 8). It
is also the one way back from a fault (60_exceptions.md R208). -/
def init (s : State) : State :=
  withResult
    { s with
      comt := false
      bktid := 0
      bktctr := 0
      ptr := 0
      pc := 0
      pcend := s.params.progLen
      mode := .ready
      lrs := []
      mem := []
      ss := 0
      fcause := .none
      fpc := 0
      fval := 0 }
    .success

/-- Construction: power-on, followed by one `INIT` (45_host_interface.md R182). The constraints of 00_scope.md R5 are a
precondition of the launch, `Params.Wf`, and are not tested here (log entry 19). -/
def construct (p : Params) (u : State) : State :=
  init (powerOn p u)

/-- `SET_BKPT(a)` (45_host_interface.md R176). -/
def setBkpt (a : Nat) (s : State) : State :=
  { s with bkpt := a, bkptEn := true }

/-- `CLR_BKPT` (45_host_interface.md R179). -/
def clrBkpt (s : State) : State :=
  { s with bkptEn := false }

/-- `RUN` (45_host_interface.md R174) as a relation: `STEP` is repeated until its result is not `Continue`. A run that
never ends relates to no state (93_implementation_defined.md I11). -/
inductive RunsTo : State → State → Prop where
  | stop {s t : State} : step s = .next t → t.port.result ≠ .cont → RunsTo s t
  | more {s t u : State} : step s = .next t → t.port.result = .cont → RunsTo t u → RunsTo s u

/-- `RUN` with fuel: at most `n` steps; `none` where they have all returned `Continue` (log entry 15). -/
def runFuel : Nat → State → Option Out
  | 0, _ => none
  | n + 1, s =>
    match step s with
    | .next t => if t.port.result = .cont then runFuel n t else some (.next t)
    | .fault r => some (.fault r)
    | .refused r => some (.refused r)

/-- The commands of the host (45_host_interface.md R171). -/
inductive Command where
  | init
  | step
  | run
  | setBkpt (a : Nat)
  | clrBkpt
  deriving DecidableEq, Repr

/-- One command, accepted in every `MODE`; `fuel` bounds the steps of `RUN` only. -/
def issue (fuel : Nat) (c : Command) (s : State) : Option Out :=
  match c with
  | .init => some (.next (init s))
  | .step => some (step s)
  | .run => runFuel fuel s
  | .setBkpt a =>
    if a < 2 ^ s.params.pcW then some (.next (setBkpt a s)) else some (.refused .breakpointTooWide)
  | .clrBkpt => some (.next (clrBkpt s))

/-- What the host's debug read can name (45_host_interface.md R180): every register, every `LRS` entry counted from the
bottom, every cell. -/
inductive Probe where
  | mode | pc | pcend | ptr | bkpt | bkptEn | bktid | bktctr | comt | ss | fcause | fpc | fval | lrsDepth
  | lrsEntry (k : Nat)
  | cell (a : Nat)
  deriving DecidableEq, Repr

/-- One reading of what the host may read: a number, or `none` where there is no such entry or cell. -/
def View.read (v : View) (q : Probe) : Option Nat :=
  match q with
  | .mode => some v.mode.code.toNat
  | .pc => some v.pc
  | .pcend => some v.pcend
  | .ptr => some v.ptr
  | .bkpt => some v.bkpt
  | .bkptEn => some v.bkptEn.toNat
  | .bktid => some v.bktid
  | .bktctr => some v.bktctr
  | .comt => some v.comt.toNat
  | .ss => some v.ss.toNat
  | .fcause => some v.fcause.code.toNat
  | .fpc => some v.fpc
  | .fval => some v.fval.toNat
  | .lrsDepth => some v.lrs.length
  | .lrsEntry k => v.lrs.reverse[k]?
  | .cell a => if a < v.memSize then some (Memory.read v.mem a).toNat else none

/-- The debug read between commands. It answers a value and no state, so it has no side effect (45_host_interface.md
R180). -/
def debugRead (q : Probe) (s : State) : Option Nat :=
  s.view.read q

/-- The host's read during the callback of the event `e` (20_memory.md R65, 45_host_interface.md R183). It answers a value
and no state: "a callback writes nothing". -/
def callbackRead (q : Probe) (e : Event) : Option Nat :=
  e.seen.read q

end Sys2Proof.Machine
end

