-- ==== Sys2Proof/Safety.lean ====
section
/-! DEFINITION. The invariant of every state reachable from `INIT` (10_state.md R38, 43_loops.md R139), what a step may
not do, and the words the claims are written in. -/

namespace Sys2Proof.Machine

/-- The invariant. The clauses named after R38 are those of 10_state.md R38; the width clauses are the widths of
10_state.md R22 to R30, which Nat registers do not carry; the rest follow from the rules cited (log entry 1). -/
structure State.Inv (s : State) : Prop where
  /-- the constraints of 00_scope.md R5 -/
  params_wf : s.params.Wf
  /-- R38: `0 <= PC <= PCEND` -/
  pc_le : s.pc ≤ s.pcend
  /-- R38: `PCEND = PROG_LEN` -/
  pcend_eq : s.pcend = s.params.progLen
  /-- R38: `PTR < MEM_SIZE` -/
  ptr_lt : s.ptr < s.params.memSize
  /-- the memory is in canonical form -/
  mem_wf : Memory.wf s.mem = true
  /-- every listed cell is one of the `MEM_SIZE` cells (R34) -/
  mem_lt : ∀ c ∈ s.mem, c.1 < s.params.memSize
  /-- R38: `COMT = 1` and `BKTCTR > 0` are not both true -/
  not_both : ¬(s.comt = true ∧ 0 < s.bktctr)
  /-- R38: `LRS.depth <= BKTID` -/
  depth_le : s.lrs.length ≤ s.bktid
  /-- R38: `PROG` holds `[` at every `LRS` entry -/
  lrs_entry : ∀ a ∈ s.lrs, s.params.prog[a]? = some 0x5B#8
  /-- R38: `MODE` is not `Uninitialized` -/
  mode_ne : s.mode ≠ .uninitialized
  /-- R38: if `EXT = 0` then `COMT = 0` -/
  ext_comt : s.params.ext = false → s.comt = false
  /-- the width of `BKPT` (R25) -/
  bkpt_lt : s.bkpt < 2 ^ s.params.pcW
  /-- the width of `BKTID` (R26) -/
  bktid_lt : s.bktid < 2 ^ s.params.bktW
  /-- a skip region counts no more than `BKTID` (R133), which also bounds the width of `BKTCTR` (R27) -/
  bktctr_le : s.bktctr ≤ s.bktid
  /-- the capacity of `LRS` (R33) -/
  depth_cap : ∀ d, s.params.stackDepth = some d → s.lrs.length ≤ d
  /-- a halted machine stands at the sentinel (R92) -/
  halted_pc : s.mode = .halted → s.pc = s.pcend
  /-- the fault record holds a cause exactly in `Faulted` (R91, R205, R231) -/
  cause_iff : s.fcause ≠ .none ↔ s.mode = .faulted
  /-- `InitializationFault` is never raised (R192) -/
  cause_ne : s.fcause ≠ .initializationFault
  /-- in `Faulted` the record names the instruction at `PC` and the byte fetched there (R30, R205) -/
  record : s.mode = .faulted → s.fpc = s.pc ∧ s.params.prog[s.pc]? = some s.fval
  /-- outside `Faulted` the record is clear (R231) -/
  record_clear : s.mode ≠ .faulted → s.fpc = 0 ∧ s.fval = 0#8

/-- The step has an answer that the spec gives: it is not one of the model's own stops. -/
def Answers (o : Out) : Prop :=
  ∃ t, o = .next t

/-- The byte the host reads at a data address, wherever the address lies. -/
abbrev State.readByte (s : State) (a : Nat) : Byte :=
  Memory.read s.mem a

/-- Every byte of memory reads the same. -/
def SameMem (s t : State) : Prop :=
  ∀ a, t.readByte a = s.readByte a

/-- Everything that no instruction writes: the parameters, `PCEND`, and the breakpoint register (R20, R23, R25). -/
def SameFixed (s t : State) : Prop :=
  t.params = s.params ∧ t.pcend = s.pcend ∧ t.bkpt = s.bkpt ∧ t.bkptEn = s.bkptEn

/-- The bracket state: `BKTID`, `BKTCTR`, `LRS`. -/
def SameBrackets (s t : State) : Prop :=
  t.bktid = s.bktid ∧ t.bktctr = s.bktctr ∧ t.lrs = s.lrs

/-- The fault record. -/
def SameRecord (s t : State) : Prop :=
  t.fcause = s.fcause ∧ t.fpc = s.fpc ∧ t.fval = s.fval

/-- What the host has been shown and has still to answer, but for the result. -/
def SameEvents (s t : State) : Prop :=
  t.port.answers = s.port.answers ∧ t.port.inCalls = s.port.inCalls ∧ t.port.events = s.port.events

/-- An event with another view in place of what the host sees during it. -/
def Event.mapSeen (f : View → View) : Event → Event
  | .out b seen => .out b (f seen)
  | .input i seen => .input i (f seen)

/-- How a step that ran an instruction ends: executed, with the fault record as it was, or by fault entry, with `PC` as
it was (R100, R205). -/
def EndsExecutedOrFaulted (s t : State) : Prop :=
  (t.mode = .running ∧ t.port.result = .cont ∧ SameRecord s t) ∨
    (t.mode = .faulted ∧ t.pc = s.pc ∧ t.fpc = s.pc ∧ t.port.result = .fault t.fcause t.fpc t.fval)

/-- The machine passes the mode gate, the halt test and the breakpoint test (R91 to R93). -/
def Fetches (s : State) : Prop :=
  s.mode ≠ .uninitialized ∧ s.mode ≠ .faulted ∧ s.pc < s.pcend ∧
    ¬(s.bkptEn = true ∧ s.pc = s.bkpt ∧ s.mode ≠ .breakpointHit)

/-- The byte at `PC` decodes to `i` and is executed: the step reaches phase 8 (R94 to R98). -/
def Executes (s : State) (i : Instr) : Prop :=
  Fetches s ∧ ¬(s.params.ext = true ∧ s.comt = true) ∧ s.bktctr = 0 ∧
    ∃ b, s.params.prog[s.pc]? = some b ∧ decode s.params.ext b = .instr i

/-- What reading a program's text from its start leaves open: the addresses of the `[` not yet closed, innermost first,
and whether the text stands in a comment (43_loops.md R140; brackets in a comment count for nothing, 44_extension.md
R160). A `]` with nothing open leaves nothing open. -/
structure Scan where
  brackets : List Nat
  comment : Bool
  deriving DecidableEq, Repr

/-- One byte of the text, at address `a`. -/
def Scan.byte (ext : Bool) (z : Scan) (a : Nat) (b : Byte) : Scan :=
  if z.comment then { z with comment := b != 0x0A }
  else if b = 0x5B then { z with brackets := a :: z.brackets }
  else if b = 0x5D then { z with brackets := z.brackets.tail }
  else if ext = true ∧ b = 0x23 then { z with comment := true }
  else z

/-- The first `n` bytes of the text. -/
def scanText (ext : Bool) (prog : List Byte) : Nat → Scan
  | 0 => ⟨[], false⟩
  | n + 1 =>
    match prog[n]? with
    | some b => (scanText ext prog n).byte ext n b
    | none => scanText ext prog n

/-- No skip region is open, `LRS` and `COMT` are what the text before `PC` leaves open, and `BKTID` is the number of open
loops (43_loops.md R140 (a)). -/
def NestedByText (s : State) : Prop :=
  s.bktctr = 0 ∧ s.bktid = s.lrs.length ∧ scanText s.params.ext s.params.prog s.pc = ⟨s.lrs, s.comt⟩

end Sys2Proof.Machine
end

