-- ==== Sys2Proof/Certificates/Slice0/Obligations.lean ====
section
/-! DEFINITION. The statements for the provers. Each docstring names the rule of spec/ it formalises; a statement on the
spec's own derivations, or on a choice of the model, says so. -/

open Sys2Proof Sys2Proof.Machine

/-! ### Encoding -/

/-- Words written out bit by bit from the tables of 30_encoding.md R72 and R73 decode to their instructions, and the
extension bytes are `INVALID` when `EXT = 0`. -/
def Obligations.OpcodeWordsDecode : Prop :=
  decode false 0b00111110#8 = .instr .incp ∧ decode false 0b00111100#8 = .instr .decp ∧
  decode false 0b00101011#8 = .instr .inc ∧ decode true 0b00101101#8 = .instr .dec ∧
  decode false 0b00101110#8 = .instr .putchar ∧ decode true 0b00101100#8 = .instr .getchar ∧
  decode false 0b01011011#8 = .instr .loopstart ∧ decode false 0b01011101#8 = .instr .loopend ∧
  decode true 0b00100011#8 = .instr .comment ∧ decode true 0b00001010#8 = .instr .newline ∧
  decode true 0b01000000#8 = .instr .jump ∧ decode true 0b00101001#8 = .instr .pop ∧
  decode false 0b00100011#8 = .invalid ∧ decode false 0b00001010#8 = .invalid

/-- R74: `decode` is the table, in both directions, and the counts of the invalid bytes. -/
def Obligations.DecodeAndEncodeAgree : Prop :=
  (∀ ext i, i.wf ext = true → decode ext (encode i) = .instr i) ∧
  (∀ ext b i, decode ext b = .instr i → encode i = b ∧ i.wf ext = true) ∧
  (∀ i, i.wf false = true ∨ decode false (encode i) = .invalid) ∧
  (List.range 256).countP (fun n => decode false (BitVec.ofNat 8 n) == .invalid) = 248 ∧
  (List.range 256).countP (fun n => decode true (BitVec.ofNat 8 n) == .invalid) = 239

/-- The numeric codes of `MODE` (R21) and `FCAUSE` (R191), as the host's debug read (R180) sees them (the numbers are the
spec's decisions D18 and D19). -/
def Obligations.ModeAndCauseCodes : Prop :=
  (∀ s : State, debugRead .mode s = some (match s.mode with
    | .uninitialized => 0 | .ready => 1 | .running => 2 | .halted => 3 | .faulted => 4 | .breakpointHit => 5)) ∧
  (∀ s : State, debugRead .fcause s = some (match s.fcause with
    | .none => 0 | .initializationFault => 1 | .invalidInstruction => 2 | .loopStackUnderflow => 3
    | .pointerRange => 4 | .jumpRange => 5 | .depthOverflow => 6 | .stackOverflow => 7))

/-! ### The step sequencer -/

/-- R90, R94, R96, R98: where the byte at `PC` is fetched outside comment mode and outside skip mode and decodes to `i`,
the step is `exec i`, which holds phases 8 and 9 and so the advance of `PC`; nothing stands around it. -/
def Obligations.StepRunsDecodedInstruction : Prop :=
  ∀ s i, Executes s i → step s = exec i s

/-- R91, the mode gate (the spec's decision D22), and what stands behind it, in the order of R90: the halt test, the
breakpoint test, the fetch. Where the fetch has no byte the spec says only that there is no step (20_memory.md R52, stuck);
that the model answers the fault `fetchOutsideProgram` there is its own choice (log entry 10). -/
def Obligations.ModeGateRefusesOrRepeats : Prop :=
  ∀ s : State,
    (s.mode = .uninitialized → step s = .next { s with port := { s.port with result := .refused } }) ∧
    (s.mode = .faulted →
      step s = .next { s with port := { s.port with result := .fault s.fcause s.fpc s.fval } }) ∧
    (s.mode ≠ .uninitialized → s.mode ≠ .faulted →
      step s = match haltTest s with
        | some t => .next t
        | none => match breakpointTest s with
          | some t => .next t
          | none => match fetch s with
            | some b => stepByte exec b s
            | none => .fault .fetchOutsideProgram)

/-- R92: the halt test at the start of the step (the spec's decision D15), and that a step returns `Halt` there and nowhere else. -/
def Obligations.HaltExactlyAtProgramEnd : Prop :=
  ∀ s : State,
    (s.mode ≠ .uninitialized → s.mode ≠ .faulted → s.pc = s.pcend →
      step s = .next { s with mode := .halted, port := { s.port with result := .halt } }) ∧
    (∀ t, step s = .next t → t.port.result = .halt →
      s.mode ≠ .uninitialized ∧ s.mode ≠ .faulted ∧ s.pc = s.pcend)

/-- R93: the breakpoint test fires before anything is fetched; in `BreakpointHit` it is skipped for one step, which
writes another `MODE`; at `PC = PCEND` it never fires (the spec's decisions D10 and D23). -/
def Obligations.BreakpointTestBeforeFetch : Prop :=
  ∀ s : State,
    (s.mode ≠ .uninitialized → s.mode ≠ .faulted → s.mode ≠ .breakpointHit →
      s.pc ≠ s.pcend → s.bkptEn = true → s.pc = s.bkpt →
      step s = .next { s with mode := .breakpointHit, port := { s.port with result := .brk s.pc } }) ∧
    (∀ b, s.mode = .breakpointHit → s.pc < s.pcend → s.params.prog[s.pc]? = some b →
      step s = stepByte exec b s) ∧
    (∀ t, s.mode = .breakpointHit → step s = .next t → t.mode ≠ .breakpointHit) ∧
    (∀ t p, step s = .next t → t.port.result = .brk p → s.pc ≠ s.pcend ∧ s.bkptEn = true ∧ s.pc = s.bkpt)

/-- R201, R202 (derived by the spec from R93 and R100): after a `Break` at `PC` the next step does not break, and if it
continues the test is armed again. -/
def Obligations.BreakOncePerPass : Prop :=
  ∀ s t u p, step s = .next t → t.port.result = .brk p → step t = .next u →
    p = s.pc ∧ t.pc = s.pc ∧ SameMem s t ∧ (∀ q, u.port.result ≠ .brk q) ∧
    (u.port.result = .cont → u.mode = .running)

/-- R95: the comment filter. The byte is not decoded, so it cannot fault (the spec's decision D16). -/
def Obligations.CommentFilterPassesByte : Prop :=
  ∀ s b, Fetches s → s.params.prog[s.pc]? = some b → s.params.ext = true → s.comt = true →
    step s = .next { s with
      comt := if b = 0x0A#8 then false else true
      pc := s.pc + 1
      mode := .running
      port := { s.port with result := .cont } }

/-- R96, R193: a byte outside the active set faults on every fetch outside comment mode, skip mode included (the spec's
decision D16). -/
def Obligations.InvalidByteFaults : Prop :=
  ∀ s b, Fetches s → s.params.prog[s.pc]? = some b → ¬(s.params.ext = true ∧ s.comt = true) →
    decode s.params.ext b = .invalid →
    step s = .next { s with
      fcause := .invalidInstruction
      fpc := s.pc
      fval := b
      mode := .faulted
      port := { s.port with result := .fault .invalidInstruction s.pc b } }

/-- R97: the skip filter. In skip mode only `]` has an effect, and only on `BKTCTR` (the spec's decision
D7). -/
def Obligations.SkipFilterCountsLoopEnds : Prop :=
  ∀ s b i, Fetches s → s.params.prog[s.pc]? = some b → ¬(s.params.ext = true ∧ s.comt = true) →
    decode s.params.ext b = .instr i → 0 < s.bktctr →
    step s = .next { s with
      bktctr := if i = .loopend then s.bktctr - 1 else s.bktctr
      pc := s.pc + 1
      mode := .running
      port := { s.port with result := .cont } }

/-- The model's two stops, in states no run reaches: the fetch at `PC > PCEND` (20_memory.md R52 says stuck; log entry
10) and the current cell outside the memory (93_implementation_defined.md I4 says stuck; log entry 11). -/
def Obligations.StuckOutsideTheAddressSpaces : Prop :=
  (∀ s : State, s.mode ≠ .uninitialized → s.mode ≠ .faulted → s.pcend < s.pc →
    ¬(s.bkptEn = true ∧ s.pc = s.bkpt ∧ s.mode ≠ .breakpointHit) →
    step s = .fault .fetchOutsideProgram) ∧
  (∀ s i, s.params.memSize ≤ s.ptr → (i = .inc ∨ i = .dec ∨ i = .putchar ∨ i = .getchar ∨ i = .pop ∨ i = .jump) →
    exec i s = .fault .dataOutsideMemory) ∧
  (∀ s : State, s.params.memSize ≤ s.ptr → s.bktid ≠ 2 ^ s.params.bktW - 1 →
    exec .loopstart s = .fault .dataOutsideMemory) ∧
  (∀ s : State, s.params.memSize ≤ s.ptr → s.lrs ≠ [] → exec .loopend s = .fault .dataOutsideMemory)

/-- The table of R103 (derived by the spec from R91 to R100): what each result leaves behind. -/
def Obligations.WhatEachResultLeavesBehind : Prop :=
  ∀ s t, step s = .next t →
    match t.port.result with
    | .refused => s.mode = .uninitialized ∧ t = { s with port := { s.port with result := .refused } }
    | .halt => t = { s with mode := .halted, port := { s.port with result := .halt } }
    | .brk p => t = { s with mode := .breakpointHit, port := { s.port with result := .brk p } }
    | .fault c p b =>
        (s.mode = .faulted ∧ t = { s with port := { s.port with result := .fault s.fcause s.fpc s.fval } }) ∨
        (s.mode ≠ .faulted ∧ p = s.pc ∧
          t = { s with mode := .faulted, fcause := c, fpc := p, fval := b,
                       port := { s.port with result := .fault c p b } })
    | .cont => t.mode = .running ∧ SameFixed s t ∧ SameRecord s t
    | .success => False

/-! ### The instructions: result and completion -/

/-- R111, `>` (the fault is the spec's decision D6). -/
def Obligations.IncpMovesRightOrFaults : Prop :=
  encode .incp = 0x3E#8 ∧ ∀ s : State,
    (s.ptr = s.params.memSize - 1 →
      exec .incp s = .next { s with
        fcause := .pointerRange, fpc := s.pc, fval := 0x3E#8, mode := .faulted
        port := { s.port with result := .fault .pointerRange s.pc 0x3E#8 } }) ∧
    (s.ptr ≠ s.params.memSize - 1 →
      exec .incp s = .next { s with
        ptr := s.ptr + 1, pc := s.pc + 1, mode := .running
        port := { s.port with result := .cont } })

/-- R112, `<` (the fault is the spec's decision D6). -/
def Obligations.DecpMovesLeftOrFaults : Prop :=
  encode .decp = 0x3C#8 ∧ ∀ s : State,
    (s.ptr = 0 →
      exec .decp s = .next { s with
        fcause := .pointerRange, fpc := s.pc, fval := 0x3C#8, mode := .faulted
        port := { s.port with result := .fault .pointerRange s.pc 0x3C#8 } }) ∧
    (s.ptr ≠ 0 →
      exec .decp s = .next { s with
        ptr := s.ptr - 1, pc := s.pc + 1, mode := .running
        port := { s.port with result := .cont } })

/-- R113, `+`: the cell becomes `wrap8(v + 1)`, 255 becomes 0, and every other cell stays. -/
def Obligations.IncAddsOneModulo256 : Prop :=
  encode .inc = 0x2B#8 ∧ ∀ s : State, Memory.wf s.mem = true → s.ptr < s.params.memSize →
    ∃ t, exec .inc s = .next t ∧
      (t.readByte s.ptr).toNat = ((s.readByte s.ptr).toNat + 1) % 256 ∧
      (∀ a, a ≠ s.ptr → t.readByte a = s.readByte a) ∧
      t = { s with mem := t.mem, pc := s.pc + 1, mode := .running, port := { s.port with result := .cont } }

/-- R114, `-`: the cell becomes `wrap8(v - 1)`, 0 becomes 255, and every other cell stays. -/
def Obligations.DecSubtractsOneModulo256 : Prop :=
  encode .dec = 0x2D#8 ∧ ∀ s : State, Memory.wf s.mem = true → s.ptr < s.params.memSize →
    ∃ t, exec .dec s = .next t ∧
      ((t.readByte s.ptr).toNat : Int) = ((s.readByte s.ptr).toNat - 1 : Int) % 256 ∧
      (∀ a, a ≠ s.ptr → t.readByte a = s.readByte a) ∧
      t = { s with mem := t.mem, pc := s.pc + 1, mode := .running, port := { s.port with result := .cont } }

/-- R121, `.`: one `Out` event with the current cell where the slot is set, and no state written but `PC`. The event holds
what the host sees during the call (R65; log entry 13). -/
def Obligations.PutcharOutputsCell : Prop :=
  encode .putchar = 0x2E#8 ∧ ∀ s : State, s.ptr < s.params.memSize →
    (s.params.outPresent = true →
      exec .putchar s = .next { s with
        pc := s.pc + 1, mode := .running
        port := { s.port with events := s.port.events ++ [.out (s.readByte s.ptr) s.view], result := .cont } }) ∧
    (s.params.outPresent = false →
      exec .putchar s = .next { s with
        pc := s.pc + 1, mode := .running, port := { s.port with result := .cont } })

/-- R122, `,`: with the slot set, the cell becomes `i mod 256` of the integer `i` that the one call of the Input callback
returns (the spec's decision D24); with it unset, 0, and no call is made. The event holds what the host sees during the
call (R65; log entry 13). -/
def Obligations.GetcharStoresLowByte : Prop :=
  encode .getchar = 0x2C#8 ∧
  (∀ s : State, Memory.wf s.mem = true → s.ptr < s.params.memSize → s.params.inPresent = true →
    ∃ i t, exec .getchar s = .next t ∧
      ((t.readByte s.ptr).toNat : Int) = i % 256 ∧
      (∀ a, a ≠ s.ptr → t.readByte a = s.readByte a) ∧
      t = { s with mem := t.mem, pc := s.pc + 1, mode := .running, port := t.port } ∧
      t.port.events = s.port.events ++ [.input i s.view] ∧ t.port.result = .cont) ∧
  (∀ s : State, Memory.wf s.mem = true → s.ptr < s.params.memSize → s.params.inPresent = false →
    ∃ t, exec .getchar s = .next t ∧ t.readByte s.ptr = 0#8 ∧
      (∀ a, a ≠ s.ptr → t.readByte a = s.readByte a) ∧
      t = { s with mem := t.mem, pc := s.pc + 1, mode := .running, port := { s.port with result := .cont } })

/-- The MODEL's choice (log entry 7) of how the free integer of R178 is given: the next of the answers the state lists,
which is then used up, and a free value of the number of calls made where it lists none. -/
def Obligations.InputAnswerIsListedOrFree : Prop :=
  ∀ s t, s.params.inPresent = true → exec .getchar s = .next t →
    (∀ i rest, s.port.answers = i :: rest →
      t.port = { answers := rest, inCalls := s.port.inCalls + 1
                 events := s.port.events ++ [.input i s.view], result := .cont }) ∧
    (s.port.answers = [] →
      t.port = { answers := [], inCalls := s.port.inCalls + 1
                 events := s.port.events ++ [.input (Config.inAnswer s.port.inCalls) s.view], result := .cont })

/-- R131, `[` (the two faults are the spec's decisions D5 and D21). -/
def Obligations.LoopstartEntersSkipsOrFaults : Prop :=
  encode .loopstart = 0x5B#8 ∧ ∀ s : State,
    (s.bktid = 2 ^ s.params.bktW - 1 →
      exec .loopstart s = .next { s with
        fcause := .depthOverflow, fpc := s.pc, fval := 0x5B#8, mode := .faulted
        port := { s.port with result := .fault .depthOverflow s.pc 0x5B#8 } }) ∧
    (s.bktid ≠ 2 ^ s.params.bktW - 1 → s.ptr < s.params.memSize → s.readByte s.ptr ≠ 0#8 →
      s.params.stackDepth = some s.lrs.length →
      exec .loopstart s = .next { s with
        fcause := .stackOverflow, fpc := s.pc, fval := 0x5B#8, mode := .faulted
        port := { s.port with result := .fault .stackOverflow s.pc 0x5B#8 } }) ∧
    (s.bktid ≠ 2 ^ s.params.bktW - 1 → s.ptr < s.params.memSize → s.readByte s.ptr ≠ 0#8 →
      s.params.stackDepth ≠ some s.lrs.length →
      exec .loopstart s = .next { s with
        bktid := s.bktid + 1, lrs := s.pc :: s.lrs, pc := s.pc + 1, mode := .running
        port := { s.port with result := .cont } }) ∧
    (s.bktid ≠ 2 ^ s.params.bktW - 1 → s.ptr < s.params.memSize → s.readByte s.ptr = 0#8 →
      exec .loopstart s = .next { s with
        bktid := s.bktid + 1, bktctr := s.bktid + 1, pc := s.pc + 1, mode := .running
        port := { s.port with result := .cont } })

/-- R132, `]` (nothing of the faulting instruction is written: the spec's decision D17). -/
def Obligations.LoopendBranchesExitsOrFaults : Prop :=
  encode .loopend = 0x5D#8 ∧ ∀ s : State,
    (s.lrs = [] →
      exec .loopend s = .next { s with
        fcause := .loopStackUnderflow, fpc := s.pc, fval := 0x5D#8, mode := .faulted
        port := { s.port with result := .fault .loopStackUnderflow s.pc 0x5D#8 } }) ∧
    (∀ a rest, s.lrs = a :: rest → s.ptr < s.params.memSize →
      exec .loopend s = .next { s with
        bktid := (((s.bktid : Int) - 1) % ((2 ^ s.params.bktW : Nat) : Int)).toNat
        lrs := rest
        pc := if s.readByte s.ptr ≠ 0#8 then a else s.pc + 1
        mode := .running
        port := { s.port with result := .cont } })

/-- R151 and R152: `#` sets `COMT`, LF clears it. -/
def Obligations.CommentAndNewlineWriteComt : Prop :=
  encode .comment = 0x23#8 ∧ encode .newline = 0x0A#8 ∧ ∀ s : State,
    exec .comment s = .next { s with
      comt := true, pc := s.pc + 1, mode := .running, port := { s.port with result := .cont } } ∧
    exec .newline s = .next { s with
      comt := false, pc := s.pc + 1, mode := .running, port := { s.port with result := .cont } }

/-- R153, R154, R155, R156, R159: TAB, CR, space, `(` and `&` write nothing but what every executed step writes; the other
blank bytes, and every byte from 0x80 up, are not in the set. -/
def Obligations.NoOpsOnlyAdvance : Prop :=
  encode .wsTab = 0x09#8 ∧ encode .wsCr = 0x0D#8 ∧ encode .wsSp = 0x20#8 ∧ encode .push = 0x28#8 ∧
  encode .syscall = 0x26#8 ∧
  decode true 0x0C#8 = .invalid ∧ decode true 0x0B#8 = .invalid ∧
  (∀ ext b, 0x80 ≤ b.toNat → decode ext b = .invalid) ∧
  ∀ s i, (i = .wsTab ∨ i = .wsCr ∨ i = .wsSp ∨ i = .push ∨ i = .syscall) →
    exec i s = .next { s with pc := s.pc + 1, mode := .running, port := { s.port with result := .cont } }

/-- R157: `)` loads `SS` from the current cell. -/
def Obligations.PopLoadsSsFromCell : Prop :=
  encode .pop = 0x29#8 ∧ ∀ s : State, s.ptr < s.params.memSize →
    exec .pop s = .next { s with
      ss := s.readByte s.ptr, pc := s.pc + 1, mode := .running, port := { s.port with result := .cont } }

/-- R158: `@`, for both values of `AT_POSTINC` (the spec's decision D8; the fault is its decision D9). -/
def Obligations.JumpGoesToCellOrFaults : Prop :=
  encode .jump = 0x40#8 ∧ ∀ s t, s.ptr < s.params.memSize →
    t = (s.readByte s.ptr).toNat + (if s.params.atPostinc = true then 1 else 0) →
    t ≤ 256 ∧
    (s.pcend < t →
      exec .jump s = .next { s with
        fcause := .jumpRange, fpc := s.pc, fval := 0x40#8, mode := .faulted
        port := { s.port with result := .fault .jumpRange s.pc 0x40#8 } }) ∧
    (t ≤ s.pcend →
      exec .jump s = .next { s with pc := t, mode := .running, port := { s.port with result := .cont } })

/-! ### Frames -/

/-- The frame of `>` and `<` (R99, R110, R111, R112): only `PTR` is a destination, the next `PC` is `PC + 1` where no
fault is raised, and a fault leaves `PTR` and `PC`. -/
def Obligations.FrameOfPointerMoves : Prop :=
  ∀ i s t, (i = .incp ∨ i = .decp) → exec i s = .next t →
    SameFixed s t ∧ SameBrackets s t ∧ SameMem s t ∧ SameEvents s t ∧ t.comt = s.comt ∧ t.ss = s.ss ∧
    EndsExecutedOrFaulted s t ∧ (t.mode = .running → t.pc = s.pc + 1) ∧ (t.mode = .faulted → t.ptr = s.ptr ∧ t.pc = s.pc)

/-- The frame of `+`, `-` and `,` (R110, R113, R114, R120, R122): the byte stored to is the current cell, one byte at
`PTR`; the events are unchanged but for the `In` call of `,`. -/
def Obligations.FrameOfCellWrites : Prop :=
  ∀ i s t, (i = .inc ∨ i = .dec ∨ i = .getchar) → exec i s = .next t →
    SameFixed s t ∧ SameBrackets s t ∧ SameRecord s t ∧ t.ptr = s.ptr ∧ t.comt = s.comt ∧ t.ss = s.ss ∧
    (∀ a, a ≠ s.ptr → t.readByte a = s.readByte a) ∧
    (i ≠ .getchar ∨ s.params.inPresent = false → SameEvents s t)

/-- The frame of `.` (R120, R121): no register but `PC` and `MODE`, and no byte of memory. -/
def Obligations.FrameOfPutchar : Prop :=
  ∀ s t, exec .putchar s = .next t →
    SameFixed s t ∧ SameBrackets s t ∧ SameRecord s t ∧ SameMem s t ∧ t.ptr = s.ptr ∧ t.comt = s.comt ∧ t.ss = s.ss ∧
    t.port.answers = s.port.answers ∧ t.port.inCalls = s.port.inCalls

/-- The frame of `[` and `]` (R131, R132): only `BKTID`, `BKTCTR`, `LRS` and `PC` are written; `]` leaves `BKTCTR`, `[`
never assigns `pc`, and a fault leaves the bracket state. -/
def Obligations.FrameOfLoops : Prop :=
  ∀ i s t, (i = .loopstart ∨ i = .loopend) → exec i s = .next t →
    SameFixed s t ∧ SameMem s t ∧ SameEvents s t ∧ t.ptr = s.ptr ∧ t.comt = s.comt ∧ t.ss = s.ss ∧
    EndsExecutedOrFaulted s t ∧ (i = .loopend → t.bktctr = s.bktctr) ∧
    (i = .loopstart → t.pc = s.pc ∨ t.pc = s.pc + 1) ∧ (t.mode = .faulted → SameBrackets s t)

/-- The frame of the extension set (R150 to R159): no memory, no bracket state, no event; `COMT` is written by `#` and LF
only, `SS` by `)` only. -/
def Obligations.FrameOfExtensionSet : Prop :=
  ∀ i s t, i.isCore = false → exec i s = .next t →
    SameFixed s t ∧ SameBrackets s t ∧ SameMem s t ∧ SameEvents s t ∧ t.ptr = s.ptr ∧ EndsExecutedOrFaulted s t ∧
    (i ≠ .comment → i ≠ .newline → t.comt = s.comt) ∧ (i ≠ .pop → t.ss = s.ss) ∧
    (i ≠ .jump → t.pc = s.pc + 1)

/-! ### The whole machine -/

/-- R38, R139: every step keeps the invariant (the clauses that R38 does not name are the model's reading of the rules
that their docstrings cite; log entry 1). -/
def Obligations.EveryStepKeepsInvariant : Prop :=
  ∀ s t : State, s.Inv → step s = .next t → t.Inv

/-- The canonical form of the data memory (the model's own representation of 10_state.md R34) is kept by every step, from
every state that has it, whatever else holds of the state. -/
def Obligations.EveryStepKeepsMemoryCanonical : Prop :=
  ∀ s t : State, Memory.wf s.mem = true → step s = .next t → Memory.wf t.mem = true

/-- The invariant holds at `State.reset`. -/
def Obligations.InvariantHoldsAtReset : Prop :=
  State.reset.Inv

/-- The invariant holds after `INIT`, whatever ran before: only the parameters' constraints and the width of `BKPT` are
needed. -/
def Obligations.InitEstablishesInvariant : Prop :=
  ∀ s : State, s.params.Wf → s.bkpt < 2 ^ s.params.pcW → (init s).Inv

/-- R38: every command of the host keeps the invariant, `RUN` of any length included. -/
def Obligations.CommandsKeepInvariant : Prop :=
  ∀ fuel c s t, s.Inv → issue fuel c s = some (.next t) → t.Inv

/-- No state that meets the invariant is stuck (20_memory.md R52, R54: an out-of-range access is never made). -/
def Obligations.NoStepIsStuck : Prop :=
  ∀ s : State, s.Inv → Answers (step s)

/-- R205 (with the spec's decision D17): fault entry writes the record and `MODE` and returns the fault; and an instruction that faults does that and
nothing else, with its own byte. -/
def Obligations.FaultEntryIsPrecise : Prop :=
  (∀ x p b s, raise x p b s = { s with
    fcause := x, fpc := p, fval := b, mode := .faulted, port := { s.port with result := .fault x p b } }) ∧
  (∀ i s t, exec i s = .next t → t.mode = .faulted → t = raise t.fcause s.pc (encode i) s)

/-- R207: `Faulted` is absorbing under `STEP` (the spec's decision D22), any number of times, and under `RUN`; the breakpoint commands do not leave
it. -/
def Obligations.FaultedIsAbsorbing : Prop :=
  ∀ s : State, s.mode = .faulted →
    (∀ n, Host.Core.run core (n + 1) s =
      .next { s with port := { s.port with result := .fault s.fcause s.fpc s.fval } }) ∧
    (∀ n, runFuel (n + 1) s =
      some (.next { s with port := { s.port with result := .fault s.fcause s.fpc s.fval } })) ∧
    (∀ a, (setBkpt a s).mode = .faulted) ∧ (clrBkpt s).mode = .faulted

/-- R20, R23, R25, R35: no step writes `PROG`, a parameter, `PCEND` or the breakpoint register. -/
def Obligations.StepsWriteNoConfiguration : Prop :=
  ∀ s t, step s = .next t → SameFixed s t

/-- R34, R57: a step changes memory at `PTR` only, and only when it executes `+`, `-` or `,`. -/
def Obligations.MemoryChangesOnlyAtPointer : Prop :=
  ∀ s t, step s = .next t →
    (∀ a, a ≠ s.ptr → t.readByte a = s.readByte a) ∧
    (SameMem s t ∨ Executes s .inc ∨ Executes s .dec ∨ Executes s .getchar)

/-- R22, R99: what a step does to `PC`. -/
def Obligations.StepsMovePc : Prop :=
  ∀ s t, step s = .next t →
    (t.port.result ≠ .cont → t.pc = s.pc) ∧
    (t.port.result = .cont → t.pc = s.pc + 1 ∨
      (Executes s .loopend ∧ s.readByte s.ptr ≠ 0#8 ∧ s.lrs.head? = some t.pc) ∨
      (Executes s .jump ∧ t.pc ≤ s.pcend ∧
        t.pc = (s.readByte s.ptr).toNat + (if s.params.atPostinc = true then 1 else 0)))

/-- R177, R178: `Out` is issued by an executed `.` and by nothing else, `In` by an executed `,` and by nothing else, one
event each. -/
def Obligations.EventsComeFromIoOnly : Prop :=
  ∀ s t, step s = .next t →
    t.port.events = s.port.events ∨
    (Executes s .putchar ∧ s.params.outPresent = true ∧
      t.port.events = s.port.events ++ [.out (s.readByte s.ptr) s.view]) ∨
    (Executes s .getchar ∧ s.params.inPresent = true ∧ ∃ i, t.port.events = s.port.events ++ [.input i s.view])

/-- R150: with `EXT = 0` no step writes `COMT` or `SS`, and a fetched byte outside the core set faults. -/
def Obligations.ExtensionOffKeepsCommentAndSs : Prop :=
  ∀ s t, s.params.ext = false → step s = .next t →
    t.comt = s.comt ∧ t.ss = s.ss ∧
    (∀ i, i.isCore = false → Fetches s → s.params.prog[s.pc]? = some (encode i) →
      t = raise .invalidInstruction s.pc (encode i) s)

/-- R29, R157, 93_implementation_defined.md I9: nothing reads `SS`, and nothing reads `BKPT` while `BKPT_EN = 0`: a step
from a state that differs only there leaves a state that differs only there, and in what the host sees of the two
registers during a callback of that step (R65). -/
def Obligations.SsAndDisabledBkptAreNotRead : Prop :=
  ∀ s s' x y, s.bkptEn = false → step s = .next s' →
    ∃ x' new, s'.port.events = s.port.events ++ new ∧
      step { s with ss := x, bkpt := y } = .next { s' with
        ss := x', bkpt := y
        port := { s'.port with
          events := s.port.events ++ new.map (Event.mapSeen fun v => { v with ss := x, bkpt := y }) } } ∧
      (x' = x ∨ x' = s'.ss)

/-- R139 (derived by the spec): `BKTID - LRS.depth` grows by one exactly on a step that begins a skip region. -/
def Obligations.BktidCountsDepthAndSkips : Prop :=
  ∀ s t : State, s.lrs.length ≤ s.bktid → s.bktid < 2 ^ s.params.bktW → step s = .next t →
    (s.bktctr = 0 → 0 < t.bktctr →
      Executes s .loopstart ∧ s.readByte s.ptr = 0#8 ∧ t.bktid = s.bktid + 1 ∧ t.lrs = s.lrs ∧ t.bktctr = t.bktid) ∧
    (¬(s.bktctr = 0 ∧ 0 < t.bktctr) → t.bktid + s.lrs.length = s.bktid + t.lrs.length)

/-- R6, R197: with `STACK_DEPTH` unbounded or at least `2^BKT_W - 1`, no step from a state that meets the invariant
raises `StackOverflow`. -/
def Obligations.StackOverflowUnreachable : Prop :=
  ∀ s t : State, s.Inv → (∀ d, s.params.stackDepth = some d → 2 ^ s.params.bktW - 1 ≤ d) →
    s.fcause ≠ .stackOverflow → step s = .next t → t.fcause ≠ .stackOverflow

/-- R135 (derived by the spec): after a taken `]` the next step executes the `[` again, enters, and pushes its address
again. -/
def Obligations.TakenLoopendReentersLoop : Prop :=
  ∀ s t : State, s.Inv → s.bkptEn = false → Executes s .loopend → s.readByte s.ptr ≠ 0#8 → step s = .next t →
    t.mode = .faulted ∨
    ∃ a rest, s.lrs = a :: rest ∧ t.pc = a ∧ t.lrs = rest ∧
      step t = .next { t with
        bktid := s.bktid, lrs := s.lrs, pc := a + 1, mode := .running, port := { t.port with result := .cont } }

/-- R133, R97 (derived by the spec): inside a skip region `n` steps pass `n` bytes of the active set and count their `]`
bytes down, as long as the count does not reach zero before the last of them; nothing else changes. -/
def Obligations.SkipRegionCountsLoopendBytes : Prop :=
  ∀ (n : Nat) (s : State) (seg : List Byte),
    s.mode ≠ .uninitialized → s.mode ≠ .faulted → s.bkptEn = false → s.comt = false →
    s.pc + (n + 1) ≤ s.pcend → (s.params.prog.drop s.pc).take (n + 1) = seg → seg.length = n + 1 →
    (∀ b ∈ seg, decode s.params.ext b ≠ .invalid) → (seg.take n).count 0x5D#8 < s.bktctr →
    Host.Core.run core (n + 1) s = .next { s with
      bktctr := s.bktctr - seg.count 0x5D#8
      pc := s.pc + (n + 1)
      mode := .running
      port := { s.port with result := .cont } }

/-- R160, R95 (derived by the spec): in comment mode `n` bytes that hold no LF are passed in `n` steps without any other
effect, invalid bytes and brackets included. -/
def Obligations.CommentRegionHasNoEffect : Prop :=
  ∀ (n : Nat) (s : State) (seg : List Byte),
    s.mode ≠ .uninitialized → s.mode ≠ .faulted → s.bkptEn = false → s.params.ext = true → s.comt = true →
    s.pc + (n + 1) ≤ s.pcend → (s.params.prog.drop s.pc).take (n + 1) = seg → seg.length = n + 1 →
    0x0A#8 ∉ seg →
    Host.Core.run core (n + 1) s = .next { s with
      pc := s.pc + (n + 1), mode := .running, port := { s.port with result := .cont } }

/-- R115: `n` bytes that are all `+` or `-`, executed in a row from any state, add the difference of their counts to the
current cell modulo 256 and change no other cell. -/
def Obligations.PlusMinusRunAddsDifference : Prop :=
  ∀ (n : Nat) (s : State) (seg : List Byte),
    s.mode ≠ .uninitialized → s.mode ≠ .faulted → s.bkptEn = false → s.comt = false → s.bktctr = 0 →
    Memory.wf s.mem = true → s.ptr < s.params.memSize →
    s.pc + n ≤ s.pcend → (s.params.prog.drop s.pc).take n = seg → seg.length = n →
    (∀ b ∈ seg, b = 0x2B#8 ∨ b = 0x2D#8) →
    ∃ t, Host.Core.run core n s = .next t ∧
      ((t.readByte s.ptr).toNat : Int) =
        (((s.readByte s.ptr).toNat : Int) + seg.count 0x2B#8 - seg.count 0x2D#8) % 256 ∧
      (∀ a, a ≠ s.ptr → t.readByte a = s.readByte a) ∧ t.ptr = s.ptr ∧ t.pc = s.pc + n

/-- R140 (a) (derived by the spec): in a program without `@`, as long as no `[` is executed on a zero cell, `LRS` holds
exactly the addresses of the loops that textually enclose `PC`, innermost on top, and `BKTID` is their number; every
step that begins no skip region keeps this. -/
def Obligations.LoopStackIsTextualNesting : Prop :=
  ∀ s t : State, 0x40#8 ∉ s.params.prog → s.bktid < 2 ^ s.params.bktW →
    NestedByText s → (Executes s .loopstart → s.readByte s.ptr ≠ 0#8) → step s = .next t → NestedByText t

/-- R235 (derived by the spec from R231 and R106): after `INIT`, two launches of one configuration with the same
breakpoint and the same host answers go through the same states, whatever ran before, and add the same events. That the
answers still to come and the events so far are fields that `INIT` leaves alone is the model's choice (log entries 7, 8). -/
def Obligations.RelaunchReproducesRun : Prop :=
  ∀ (n : Nat) (s t u : State), s.params = t.params → s.bkpt = t.bkpt → s.bkptEn = t.bkptEn →
    s.port.answers = t.port.answers → s.port.inCalls = t.port.inCalls →
    Host.Core.run core n (init s) = .next u →
    ∃ new, u.port.events = s.port.events ++ new ∧
      Host.Core.run core n (init t) =
        .next { u with port := { u.port with events := t.port.events ++ new } }

/-! ### Commands -/

/-- R231, R233 (with the spec's decisions D1, D12, D13, D14): what `INIT` writes and what it leaves alone; a breakpoint at
address 0 fires on the first step after it. That `INIT` leaves the port but its result, the answers still to come and the
events so far, is the model's choice (log entry 8). -/
def Obligations.InitWritesEveryRegisterButBkpt : Prop :=
  ∀ s : State,
    init s = { s with
      comt := false, bktid := 0, bktctr := 0, ptr := 0, pc := 0, pcend := s.params.prog.length, mode := .ready
      lrs := [], mem := [], ss := 0#8, fcause := .none, fpc := 0, fval := 0#8
      port := { s.port with result := .success } } ∧
    (∀ a, (init s).readByte a = 0#8) ∧ (init s).bkpt = s.bkpt ∧ (init s).bkptEn = s.bkptEn ∧
    (init s).params = s.params ∧
    (s.bkptEn = true → s.bkpt = 0 → 0 < s.params.prog.length →
      step (init s) = .next { init s with
        mode := .breakpointHit, port := { s.port with result := .brk 0 } })

/-- R230, R182: after power-on the machine refuses a step and holds zero in every cell; construction is power-on and then
`INIT`, after which it is `Ready`; and `State.reset` is that construction (`BKPT = 0` and the empty port are the model's
choices, log entries 5, 7 and 8). -/
def Obligations.PowerOnThenInitConstructs : Prop :=
  (∀ p u, (powerOn p u).mode = .uninitialized ∧ (powerOn p u).bkptEn = false ∧ (powerOn p u).params = p ∧
    (∀ a, (powerOn p u).readByte a = 0#8) ∧
    step (powerOn p u) = .next { powerOn p u with port := { u.port with result := .refused } }) ∧
  (∀ p u, construct p u = init (powerOn p u) ∧ (construct p u).mode = .ready ∧
    (construct p u).pcend = p.prog.length) ∧
  (∀ u : State, u.bkpt = 0 → u.port.answers = [] → u.port.inCalls = 0 → u.port.events = [] →
    construct {} u = State.reset)

/-- R176 (with the spec's decision D11), R179: the two breakpoint commands write the breakpoint register and nothing else,
and a value of `PROG_LEN` or more never fires. -/
def Obligations.BreakpointCommandsWriteBkptOnly : Prop :=
  ∀ s : State,
    (∀ a fuel, a < 2 ^ s.params.pcW →
      issue fuel (.setBkpt a) s = some (.next { s with bkpt := a, bkptEn := true })) ∧
    (∀ fuel, issue fuel .clrBkpt s = some (.next { s with bkptEn := false })) ∧
    (∀ a t p, s.pcend = s.params.progLen → s.pc ≤ s.pcend → s.params.progLen ≤ a →
      step (setBkpt a s) = .next t → t.port.result ≠ .brk p)

/-- R174: `RUN` with enough fuel is the relation `RunsTo`, and its result is the first one that is not `Continue`. -/
def Obligations.RunIsRepeatedStep : Prop :=
  ∀ s t : State, ((∃ n, runFuel n s = some (.next t)) ↔ RunsTo s t) ∧ (RunsTo s t → t.port.result ≠ .cont)

/-! ### What the host sees in a callback -/

/-- 20_memory.md R65: in the callback of an executed `.` or `,` the host reads every register, every `LRS` entry and every
cell as a debug read of the state at the start of the step gives it, the cell that `,` is about to write included; and the
callback writes nothing: the step leaves what `.` and `,` themselves write. -/
def Obligations.CallbackReadsStartOfStep : Prop :=
  ∀ s t e, step s = .next t → t.port.events = s.port.events ++ [e] →
    (∀ q, callbackRead q e = debugRead q s) ∧
    (Executes s .putchar ∨ Executes s .getchar) ∧
    (Executes s .putchar → SameMem s t) ∧ (∀ a, a ≠ s.ptr → t.readByte a = s.readByte a) ∧
    t = { s with mem := t.mem, pc := s.pc + 1, mode := .running, port := t.port }
end

