-- ==== Sys2Proof/Laws/PerInstr.lean ====
section
/-! SUPPORT. Statements for all instructions, instruction by instruction. `RoundTrip`: an instruction of the active set
is read back from its byte, and one outside it is not recognised (30_encoding.md R74). -/

namespace Sys2Proof.Laws

def RoundTrip.Statement (i : Instr) : Prop :=
  ∀ ext, decode ext (encode i) = if i.wf ext = true then .instr i else .invalid

theorem RoundTrip.incp : RoundTrip.Statement .incp := by unfold RoundTrip.Statement; decide
theorem RoundTrip.decp : RoundTrip.Statement .decp := by unfold RoundTrip.Statement; decide
theorem RoundTrip.inc : RoundTrip.Statement .inc := by unfold RoundTrip.Statement; decide
theorem RoundTrip.dec : RoundTrip.Statement .dec := by unfold RoundTrip.Statement; decide
theorem RoundTrip.putchar : RoundTrip.Statement .putchar := by unfold RoundTrip.Statement; decide
theorem RoundTrip.getchar : RoundTrip.Statement .getchar := by unfold RoundTrip.Statement; decide
theorem RoundTrip.loopstart : RoundTrip.Statement .loopstart := by unfold RoundTrip.Statement; decide
theorem RoundTrip.loopend : RoundTrip.Statement .loopend := by unfold RoundTrip.Statement; decide
theorem RoundTrip.comment : RoundTrip.Statement .comment := by unfold RoundTrip.Statement; decide
theorem RoundTrip.newline : RoundTrip.Statement .newline := by unfold RoundTrip.Statement; decide
theorem RoundTrip.wsTab : RoundTrip.Statement .wsTab := by unfold RoundTrip.Statement; decide
theorem RoundTrip.wsCr : RoundTrip.Statement .wsCr := by unfold RoundTrip.Statement; decide
theorem RoundTrip.wsSp : RoundTrip.Statement .wsSp := by unfold RoundTrip.Statement; decide
theorem RoundTrip.push : RoundTrip.Statement .push := by unfold RoundTrip.Statement; decide
theorem RoundTrip.pop : RoundTrip.Statement .pop := by unfold RoundTrip.Statement; decide
theorem RoundTrip.jump : RoundTrip.Statement .jump := by unfold RoundTrip.Statement; decide
theorem RoundTrip.syscall : RoundTrip.Statement .syscall := by unfold RoundTrip.Statement; decide

end Sys2Proof.Laws
end

