-- ==== Sys2Proof/Laws/Decode.lean ====
section
/-! SUPPORT. The opcode map: no two rows share a byte, every row's byte is the encoder's, and what a decoded byte tells. -/

namespace Sys2Proof

/-- No two rows of the opcode map overlap. -/
theorem activeRows_pairwise : (activeRows true).Pairwise (fun r q => r.byte ≠ q.byte) := by decide

/-- Every active row is the encoder's row of a well-formed instruction. -/
theorem activeRows_encode (ext : Bool) : ∀ r ∈ activeRows ext, encode r.instr = r.byte ∧ r.instr.wf ext = true := by
  cases ext <;> decide

/-- A decoded byte is the encoder's byte of a well-formed instruction. -/
theorem decode_instr (ext : Bool) (b : Byte) (i : Instr) (h : decode ext b = .instr i) :
    encode i = b ∧ i.wf ext = true := by
  unfold decode at h
  split at h
  · rename_i r hr
    cases h
    have hb := List.find?_some hr
    have := activeRows_encode ext r (List.mem_of_find?_eq_some hr)
    exact ⟨this.1.trans (by simpa using hb), this.2⟩
  · cases h

end Sys2Proof
end

