-- ==== Sys2Proof/Laws/Memory.lean ====
section
/-! SUPPORT. The data memory: read after write, and the canonical form that every write keeps. -/

namespace Sys2Proof.Machine

@[simp] theorem Memory.read_nil (a : Nat) : Memory.read [] a = 0#8 := rfl

theorem Memory.read_cons (a : Nat) (v : Byte) (m : Memory) (b : Nat) (h : b ≠ a ∨ v ≠ 0#8 ∨ Memory.read m b = 0#8) :
    Memory.read (Memory.cons a v m) b = if b = a then v else Memory.read m b := by
  unfold Memory.cons
  by_cases hb : b = a
  · subst hb
    split
    · rename_i hv
      rcases h with h | h | h
      · exact absurd rfl h
      · exact absurd hv h
      · simp [h, hv]
    · simp [Memory.read]
  · have hb' : a ≠ b := fun h => hb h.symm
    split <;> simp [Memory.read, hb']

/-- Every entry of a canonical memory lies above a bound below its first entry, so the bound reads as unlisted. -/
theorem Memory.read_below (m : Memory) (a : Nat) (h : ∀ c ∈ m, a < c.1) : Memory.read m a = 0#8 := by
  induction m with
  | nil => rfl
  | cons c m ih =>
    have hc := h c (by simp)
    have hne : c.1 ≠ a := by omega
    simp only [Memory.read, hne, if_false]
    exact ih fun d hd => h d (by simp [hd])

theorem Memory.wf_cons_iff (c : Host.Cell) (m : Memory) :
    Memory.wf (c :: m) = true ↔ c.2 ≠ 0#8 ∧ (∀ d ∈ m, c.1 < d.1) ∧ Memory.wf m = true := by
  simp [Memory.wf, Memory.unlisted, and_assoc]

/-- A byte in front of a canonical memory that lies above it. -/
theorem Memory.wf_cons (a : Nat) (v : Byte) (m : Memory) (hm : Memory.wf m = true) (h : ∀ d ∈ m, a < d.1) :
    Memory.wf (Memory.cons a v m) = true := by
  unfold Memory.cons
  split
  · exact hm
  · rename_i hv
    exact (Memory.wf_cons_iff _ _).2 ⟨hv, h, hm⟩

theorem Memory.mem_cons (a : Nat) (v : Byte) (m : Memory) (c : Host.Cell) (h : c ∈ Memory.cons a v m) :
    c = (a, v) ∨ c ∈ m := by
  unfold Memory.cons at h
  split at h <;> simp_all

/-- What a write can list: the byte written, or what was listed. -/
theorem Memory.mem_write (m : Memory) (a : Nat) (v : Byte) (c : Host.Cell) (h : c ∈ Memory.write m a v) :
    c.1 = a ∨ c ∈ m := by
  induction m with
  | nil =>
    rcases Memory.mem_cons a v [] c h with rfl | h
    · simp
    · simp at h
  | cons d m ih =>
    unfold Memory.write at h
    split at h
    · rcases Memory.mem_cons _ _ _ _ h with rfl | h
      · simp
      · exact .inr h
    · split at h
      · rcases Memory.mem_cons _ _ _ _ h with rfl | h
        · simp
        · exact .inr (by simp [h])
      · rcases List.mem_cons.1 h with rfl | h
        · exact .inr (by simp)
        · rcases ih h with h | h
          · exact .inl h
          · exact .inr (by simp [h])

/-- Every write keeps the canonical form. -/
theorem Memory.wf_write (m : Memory) (a : Nat) (v : Byte) (hm : Memory.wf m = true) :
    Memory.wf (Memory.write m a v) = true := by
  induction m with
  | nil => exact Memory.wf_cons a v [] rfl (by simp)
  | cons d m ih =>
    obtain ⟨hd, hlt, hm'⟩ := (Memory.wf_cons_iff d m).1 hm
    unfold Memory.write
    split
    · rename_i h
      refine Memory.wf_cons _ _ _ hm fun e he => ?_
      rcases List.mem_cons.1 he with rfl | he
      · exact h
      · exact lt_trans h (hlt e he)
    · split
      · rename_i h
        exact Memory.wf_cons _ _ _ hm' fun e he => h ▸ hlt e he
      · rename_i h1 h2
        refine (Memory.wf_cons_iff _ _).2 ⟨hd, fun e he => ?_, ih hm'⟩
        rcases Memory.mem_write m a v e he with h | h
        · omega
        · exact hlt e h

/-- A write leaves every other address alone, in any list. -/
theorem Memory.read_write_other (m : Memory) (a b : Nat) (v : Byte) (h : b ≠ a) :
    Memory.read (Memory.write m a v) b = Memory.read m b := by
  induction m with
  | nil => simp [Memory.write, Memory.read_cons, h]
  | cons d m ih =>
    unfold Memory.write
    split
    · rw [Memory.read_cons _ _ _ _ (.inl h)]; simp [h]
    · split
      · rename_i h2
        rw [Memory.read_cons _ _ _ _ (.inl h)]
        have : d.1 ≠ b := by omega
        simp [h, Memory.read, this]
      · simp only [Memory.read, ih]

/-- A read after a write to the same address gives the byte written, in a canonical memory. -/
theorem Memory.read_write_same (m : Memory) (a : Nat) (v : Byte) (hm : Memory.wf m = true) :
    Memory.read (Memory.write m a v) a = v := by
  induction m with
  | nil =>
    rw [Memory.write, Memory.read_cons _ _ _ _ (.inr (.inr rfl))]; simp
  | cons d m ih =>
    obtain ⟨hd, hlt, hm'⟩ := (Memory.wf_cons_iff d m).1 hm
    unfold Memory.write
    split
    · rename_i h
      have hz : Memory.read (d :: m) a = 0#8 := Memory.read_below _ _ fun e he => by
        rcases List.mem_cons.1 he with rfl | he
        · exact h
        · exact lt_trans h (hlt e he)
      rw [Memory.read_cons _ _ _ _ (.inr (.inr hz))]; simp
    · split
      · rename_i h
        have hz : Memory.read m a = 0#8 := Memory.read_below _ _ fun e he => h ▸ hlt e he
        rw [Memory.read_cons _ _ _ _ (.inr (.inr hz))]; simp
      · rename_i h1 h2
        have : d.1 ≠ a := fun h => h2 h.symm
        simp [Memory.read, this, ih hm']

end Sys2Proof.Machine
end

