-- ==== Sys2Proof/Laws/State.lean ====
section
/-! SUPPORT. The named updates of State, field by field: each is true by unfolding, and simp uses them in place of the
record updates. -/

namespace Sys2Proof.Machine

/-! `result <- r` -/

@[simp] theorem withResult_params (s : State) (r : Result) : (withResult s r).params = s.params := rfl
@[simp] theorem withResult_mode (s : State) (r : Result) : (withResult s r).mode = s.mode := rfl
@[simp] theorem withResult_pc (s : State) (r : Result) : (withResult s r).pc = s.pc := rfl
@[simp] theorem withResult_pcend (s : State) (r : Result) : (withResult s r).pcend = s.pcend := rfl
@[simp] theorem withResult_ptr (s : State) (r : Result) : (withResult s r).ptr = s.ptr := rfl
@[simp] theorem withResult_bkpt (s : State) (r : Result) : (withResult s r).bkpt = s.bkpt := rfl
@[simp] theorem withResult_bkptEn (s : State) (r : Result) : (withResult s r).bkptEn = s.bkptEn := rfl
@[simp] theorem withResult_bktid (s : State) (r : Result) : (withResult s r).bktid = s.bktid := rfl
@[simp] theorem withResult_bktctr (s : State) (r : Result) : (withResult s r).bktctr = s.bktctr := rfl
@[simp] theorem withResult_comt (s : State) (r : Result) : (withResult s r).comt = s.comt := rfl
@[simp] theorem withResult_ss (s : State) (r : Result) : (withResult s r).ss = s.ss := rfl
@[simp] theorem withResult_fcause (s : State) (r : Result) : (withResult s r).fcause = s.fcause := rfl
@[simp] theorem withResult_fpc (s : State) (r : Result) : (withResult s r).fpc = s.fpc := rfl
@[simp] theorem withResult_fval (s : State) (r : Result) : (withResult s r).fval = s.fval := rfl
@[simp] theorem withResult_lrs (s : State) (r : Result) : (withResult s r).lrs = s.lrs := rfl
@[simp] theorem withResult_mem (s : State) (r : Result) : (withResult s r).mem = s.mem := rfl
@[simp] theorem withResult_port (s : State) (r : Result) : (withResult s r).port = { s.port with result := r } := rfl

/-! commit at `t` -/

@[simp] theorem commit_params (s : State) (t : Nat) : (commit s t).params = s.params := rfl
@[simp] theorem commit_mode (s : State) (t : Nat) : (commit s t).mode = .running := rfl
@[simp] theorem commit_pc (s : State) (t : Nat) : (commit s t).pc = t := rfl
@[simp] theorem commit_pcend (s : State) (t : Nat) : (commit s t).pcend = s.pcend := rfl
@[simp] theorem commit_ptr (s : State) (t : Nat) : (commit s t).ptr = s.ptr := rfl
@[simp] theorem commit_bkpt (s : State) (t : Nat) : (commit s t).bkpt = s.bkpt := rfl
@[simp] theorem commit_bkptEn (s : State) (t : Nat) : (commit s t).bkptEn = s.bkptEn := rfl
@[simp] theorem commit_bktid (s : State) (t : Nat) : (commit s t).bktid = s.bktid := rfl
@[simp] theorem commit_bktctr (s : State) (t : Nat) : (commit s t).bktctr = s.bktctr := rfl
@[simp] theorem commit_comt (s : State) (t : Nat) : (commit s t).comt = s.comt := rfl
@[simp] theorem commit_ss (s : State) (t : Nat) : (commit s t).ss = s.ss := rfl
@[simp] theorem commit_fcause (s : State) (t : Nat) : (commit s t).fcause = s.fcause := rfl
@[simp] theorem commit_fpc (s : State) (t : Nat) : (commit s t).fpc = s.fpc := rfl
@[simp] theorem commit_fval (s : State) (t : Nat) : (commit s t).fval = s.fval := rfl
@[simp] theorem commit_lrs (s : State) (t : Nat) : (commit s t).lrs = s.lrs := rfl
@[simp] theorem commit_mem (s : State) (t : Nat) : (commit s t).mem = s.mem := rfl
@[simp] theorem commit_port (s : State) (t : Nat) : (commit s t).port = { s.port with result := .cont } := rfl

/-! commit at `PC + 1` -/

@[simp] theorem advance_params (s : State) : (advance s).params = s.params := rfl
@[simp] theorem advance_mode (s : State) : (advance s).mode = .running := rfl
@[simp] theorem advance_pc (s : State) : (advance s).pc = s.pc + 1 := rfl
@[simp] theorem advance_pcend (s : State) : (advance s).pcend = s.pcend := rfl
@[simp] theorem advance_ptr (s : State) : (advance s).ptr = s.ptr := rfl
@[simp] theorem advance_bkpt (s : State) : (advance s).bkpt = s.bkpt := rfl
@[simp] theorem advance_bkptEn (s : State) : (advance s).bkptEn = s.bkptEn := rfl
@[simp] theorem advance_bktid (s : State) : (advance s).bktid = s.bktid := rfl
@[simp] theorem advance_bktctr (s : State) : (advance s).bktctr = s.bktctr := rfl
@[simp] theorem advance_comt (s : State) : (advance s).comt = s.comt := rfl
@[simp] theorem advance_ss (s : State) : (advance s).ss = s.ss := rfl
@[simp] theorem advance_fcause (s : State) : (advance s).fcause = s.fcause := rfl
@[simp] theorem advance_fpc (s : State) : (advance s).fpc = s.fpc := rfl
@[simp] theorem advance_fval (s : State) : (advance s).fval = s.fval := rfl
@[simp] theorem advance_lrs (s : State) : (advance s).lrs = s.lrs := rfl
@[simp] theorem advance_mem (s : State) : (advance s).mem = s.mem := rfl
@[simp] theorem advance_port (s : State) : (advance s).port = { s.port with result := .cont } := rfl

/-! fault entry -/

@[simp] theorem raise_params (x : Cause) (p : Nat) (b : Byte) (s : State) : (raise x p b s).params = s.params := rfl
@[simp] theorem raise_mode (x : Cause) (p : Nat) (b : Byte) (s : State) : (raise x p b s).mode = .faulted := rfl
@[simp] theorem raise_pc (x : Cause) (p : Nat) (b : Byte) (s : State) : (raise x p b s).pc = s.pc := rfl
@[simp] theorem raise_pcend (x : Cause) (p : Nat) (b : Byte) (s : State) : (raise x p b s).pcend = s.pcend := rfl
@[simp] theorem raise_ptr (x : Cause) (p : Nat) (b : Byte) (s : State) : (raise x p b s).ptr = s.ptr := rfl
@[simp] theorem raise_bkpt (x : Cause) (p : Nat) (b : Byte) (s : State) : (raise x p b s).bkpt = s.bkpt := rfl
@[simp] theorem raise_bkptEn (x : Cause) (p : Nat) (b : Byte) (s : State) : (raise x p b s).bkptEn = s.bkptEn := rfl
@[simp] theorem raise_bktid (x : Cause) (p : Nat) (b : Byte) (s : State) : (raise x p b s).bktid = s.bktid := rfl
@[simp] theorem raise_bktctr (x : Cause) (p : Nat) (b : Byte) (s : State) : (raise x p b s).bktctr = s.bktctr := rfl
@[simp] theorem raise_comt (x : Cause) (p : Nat) (b : Byte) (s : State) : (raise x p b s).comt = s.comt := rfl
@[simp] theorem raise_ss (x : Cause) (p : Nat) (b : Byte) (s : State) : (raise x p b s).ss = s.ss := rfl
@[simp] theorem raise_fcause (x : Cause) (p : Nat) (b : Byte) (s : State) : (raise x p b s).fcause = x := rfl
@[simp] theorem raise_fpc (x : Cause) (p : Nat) (b : Byte) (s : State) : (raise x p b s).fpc = p := rfl
@[simp] theorem raise_fval (x : Cause) (p : Nat) (b : Byte) (s : State) : (raise x p b s).fval = b := rfl
@[simp] theorem raise_lrs (x : Cause) (p : Nat) (b : Byte) (s : State) : (raise x p b s).lrs = s.lrs := rfl
@[simp] theorem raise_mem (x : Cause) (p : Nat) (b : Byte) (s : State) : (raise x p b s).mem = s.mem := rfl
@[simp] theorem raise_port (x : Cause) (p : Nat) (b : Byte) (s : State) : (raise x p b s).port = { s.port with result := .fault x p b } := rfl

/-! the push on the loop-return stack -/

@[simp] theorem lrsPush_params (s : State) (a : Nat) : (lrsPush s a).params = s.params := rfl
@[simp] theorem lrsPush_mode (s : State) (a : Nat) : (lrsPush s a).mode = s.mode := rfl
@[simp] theorem lrsPush_pc (s : State) (a : Nat) : (lrsPush s a).pc = s.pc := rfl
@[simp] theorem lrsPush_pcend (s : State) (a : Nat) : (lrsPush s a).pcend = s.pcend := rfl
@[simp] theorem lrsPush_ptr (s : State) (a : Nat) : (lrsPush s a).ptr = s.ptr := rfl
@[simp] theorem lrsPush_bkpt (s : State) (a : Nat) : (lrsPush s a).bkpt = s.bkpt := rfl
@[simp] theorem lrsPush_bkptEn (s : State) (a : Nat) : (lrsPush s a).bkptEn = s.bkptEn := rfl
@[simp] theorem lrsPush_bktid (s : State) (a : Nat) : (lrsPush s a).bktid = s.bktid := rfl
@[simp] theorem lrsPush_bktctr (s : State) (a : Nat) : (lrsPush s a).bktctr = s.bktctr := rfl
@[simp] theorem lrsPush_comt (s : State) (a : Nat) : (lrsPush s a).comt = s.comt := rfl
@[simp] theorem lrsPush_ss (s : State) (a : Nat) : (lrsPush s a).ss = s.ss := rfl
@[simp] theorem lrsPush_fcause (s : State) (a : Nat) : (lrsPush s a).fcause = s.fcause := rfl
@[simp] theorem lrsPush_fpc (s : State) (a : Nat) : (lrsPush s a).fpc = s.fpc := rfl
@[simp] theorem lrsPush_fval (s : State) (a : Nat) : (lrsPush s a).fval = s.fval := rfl
@[simp] theorem lrsPush_lrs (s : State) (a : Nat) : (lrsPush s a).lrs = a :: s.lrs := rfl
@[simp] theorem lrsPush_mem (s : State) (a : Nat) : (lrsPush s a).mem = s.mem := rfl
@[simp] theorem lrsPush_port (s : State) (a : Nat) : (lrsPush s a).port = s.port := rfl

/-! `INIT` -/

@[simp] theorem init_params (s : State) : (init s).params = s.params := rfl
@[simp] theorem init_mode (s : State) : (init s).mode = .ready := rfl
@[simp] theorem init_pc (s : State) : (init s).pc = 0 := rfl
@[simp] theorem init_pcend (s : State) : (init s).pcend = s.params.progLen := rfl
@[simp] theorem init_ptr (s : State) : (init s).ptr = 0 := rfl
@[simp] theorem init_bkpt (s : State) : (init s).bkpt = s.bkpt := rfl
@[simp] theorem init_bkptEn (s : State) : (init s).bkptEn = s.bkptEn := rfl
@[simp] theorem init_bktid (s : State) : (init s).bktid = 0 := rfl
@[simp] theorem init_bktctr (s : State) : (init s).bktctr = 0 := rfl
@[simp] theorem init_comt (s : State) : (init s).comt = false := rfl
@[simp] theorem init_ss (s : State) : (init s).ss = 0 := rfl
@[simp] theorem init_fcause (s : State) : (init s).fcause = .none := rfl
@[simp] theorem init_fpc (s : State) : (init s).fpc = 0 := rfl
@[simp] theorem init_fval (s : State) : (init s).fval = 0 := rfl
@[simp] theorem init_lrs (s : State) : (init s).lrs = [] := rfl
@[simp] theorem init_mem (s : State) : (init s).mem = [] := rfl
@[simp] theorem init_port (s : State) : (init s).port = { s.port with result := .success } := rfl

/-! what the host may read -/

@[simp] theorem view_memSize (s : State) : s.view.memSize = s.params.memSize := rfl
@[simp] theorem view_mode (s : State) : s.view.mode = s.mode := rfl
@[simp] theorem view_pc (s : State) : s.view.pc = s.pc := rfl
@[simp] theorem view_pcend (s : State) : s.view.pcend = s.pcend := rfl
@[simp] theorem view_ptr (s : State) : s.view.ptr = s.ptr := rfl
@[simp] theorem view_bkpt (s : State) : s.view.bkpt = s.bkpt := rfl
@[simp] theorem view_bkptEn (s : State) : s.view.bkptEn = s.bkptEn := rfl
@[simp] theorem view_bktid (s : State) : s.view.bktid = s.bktid := rfl
@[simp] theorem view_bktctr (s : State) : s.view.bktctr = s.bktctr := rfl
@[simp] theorem view_comt (s : State) : s.view.comt = s.comt := rfl
@[simp] theorem view_ss (s : State) : s.view.ss = s.ss := rfl
@[simp] theorem view_fcause (s : State) : s.view.fcause = s.fcause := rfl
@[simp] theorem view_fpc (s : State) : s.view.fpc = s.fpc := rfl
@[simp] theorem view_fval (s : State) : s.view.fval = s.fval := rfl
@[simp] theorem view_lrs (s : State) : s.view.lrs = s.lrs := rfl
@[simp] theorem view_mem (s : State) : s.view.mem = s.mem := rfl
@[simp] theorem withResult_view (s : State) (r : Result) : (withResult s r).view = s.view := rfl
@[simp] theorem seen_out (b : Byte) (v : View) : (Event.out b v).seen = v := rfl
@[simp] theorem seen_input (i : Int) (v : View) : (Event.input i v).seen = v := rfl

/-- The cell a reading names, as the operation of 20_memory.md R53 reads it. -/
theorem read_view_cell (s : State) (a : Nat) : s.view.read (.cell a) = (memRead s a).map BitVec.toNat := by
  by_cases h : a < s.params.memSize <;> simp [View.read, memRead, h]

end Sys2Proof.Machine
end

