-- ==== Sys2Proof/Laws/Ops.lean ====
section
/-! SUPPORT. One lemma per shared operation: what it answers inside the address spaces, and everything it can have done
when it answers a next state. -/

namespace Sys2Proof.Machine

/-! ### Bytes -/

theorem wrap8_toNat (i : Int) : ((wrap8 i).toNat : Int) = i % 256 := by
  simp only [wrap8, BitVec.toNat_ofInt]
  omega

@[simp] theorem wrap8_zero : wrap8 0 = 0#8 := rfl

theorem cellIsZero_iff (v : Byte) : cellIsZero v = true ↔ v = 0#8 := by simp [cellIsZero]

/-! ### The current cell -/

theorem withCell_of_lt (s : State) (k : Byte → Out) (h : s.ptr < s.params.memSize) :
    withCell s k = k (s.readByte s.ptr) := by
  simp [withCell, memRead, h]

theorem withCell_of_le (s : State) (k : Byte → Out) (h : s.params.memSize ≤ s.ptr) :
    withCell s k = .fault .dataOutsideMemory := by
  simp [withCell, memRead, Nat.not_lt.2 h]

theorem withCell_next (s t : State) (k : Byte → Out) (h : withCell s k = .next t) :
    s.ptr < s.params.memSize ∧ k (s.readByte s.ptr) = .next t := by
  by_cases hp : s.ptr < s.params.memSize
  · exact ⟨hp, withCell_of_lt s k hp ▸ h⟩
  · rw [withCell_of_le s k (Nat.not_lt.1 hp)] at h; cases h

theorem storeCell_of_lt (s : State) (v : Byte) (h : s.ptr < s.params.memSize) :
    storeCell s v = .next (advance { s with mem := Memory.write s.mem s.ptr v }) := by
  simp [storeCell, memWrite, h]

theorem storeCell_of_le (s : State) (v : Byte) (h : s.params.memSize ≤ s.ptr) :
    storeCell s v = .fault .dataOutsideMemory := by
  simp [storeCell, memWrite, Nat.not_lt.2 h]

theorem storeCell_next (s t : State) (v : Byte) (h : storeCell s v = .next t) :
    s.ptr < s.params.memSize ∧ t = advance { s with mem := Memory.write s.mem s.ptr v } := by
  by_cases hp : s.ptr < s.params.memSize
  · rw [storeCell_of_lt s v hp] at h
    exact ⟨hp, (Host.Outcome.next.inj h).symm⟩
  · rw [storeCell_of_le s v (Nat.not_lt.1 hp)] at h; cases h

/-! ### The bracket counter -/

theorem bktPred_of_pos (s : State) (h : 1 ≤ s.bktid) (hw : s.bktid < 2 ^ s.params.bktW) : bktPred s = s.bktid - 1 := by
  unfold bktPred
  rw [Int.emod_eq_of_lt (by omega) (by omega)]
  omega

theorem lrsFull_iff (s : State) : lrsFull s = true ↔ s.params.stackDepth = some s.lrs.length := by simp [lrsFull]

/-! ### The callbacks -/

/-- The Output callback writes nothing but the events. -/
theorem callOut_eq (v : Byte) (s : State) :
    callOut v s = { s with port := { s.port with
      events := if s.params.outPresent = true then s.port.events ++ [.out v s.view] else s.port.events } } := by
  unfold callOut
  split <;> rfl

/-- The Input callback writes nothing but the port. -/
theorem callIn_snd (s : State) : (callIn s).2 = { s with port := (callIn s).2.port } := by
  unfold callIn
  split <;> rfl

theorem callIn_of_present (s : State) (h : s.params.inPresent = true) :
    callIn s = (nextAnswer s, { s with port := { s.port with
      answers := s.port.answers.tail, inCalls := s.port.inCalls + 1
      events := s.port.events ++ [.input (nextAnswer s) s.view] } }) := by
  simp [callIn, h]

theorem callIn_of_absent (s : State) (h : s.params.inPresent = false) : callIn s = (0, s) := by
  simp [callIn, h]

@[simp] theorem callIn_ptr (s : State) : (callIn s).2.ptr = s.ptr := by rw [callIn_snd]
@[simp] theorem callIn_params (s : State) : (callIn s).2.params = s.params := by rw [callIn_snd]
@[simp] theorem callIn_result (s : State) : (callIn s).2.port.result = s.port.result := by
  unfold callIn
  split <;> rfl

/-! ### The instructions: everything each can have done when it answers a next state -/

theorem execIncp_next (s t : State) (h : execIncp s = .next t) :
    (s.ptr = s.params.memSize - 1 ∧ t = raise .pointerRange s.pc 0x3E s) ∨
    (s.ptr ≠ s.params.memSize - 1 ∧ t = advance { s with ptr := s.ptr + 1 }) := by
  unfold execIncp at h
  split at h <;> simp_all

theorem execDecp_next (s t : State) (h : execDecp s = .next t) :
    (s.ptr = 0 ∧ t = raise .pointerRange s.pc 0x3C s) ∨
    (s.ptr ≠ 0 ∧ t = advance { s with ptr := s.ptr - 1 }) := by
  unfold execDecp at h
  split at h <;> simp_all

theorem execInc_next (s t : State) (h : execInc s = .next t) :
    s.ptr < s.params.memSize ∧
    t = advance { s with mem := Memory.write s.mem s.ptr (wrap8 (((s.readByte s.ptr).toNat : Int) + 1)) } :=
  storeCell_next _ _ _ (withCell_next _ _ _ h).2

theorem execDec_next (s t : State) (h : execDec s = .next t) :
    s.ptr < s.params.memSize ∧
    t = advance { s with mem := Memory.write s.mem s.ptr (wrap8 (((s.readByte s.ptr).toNat : Int) - 1)) } :=
  storeCell_next _ _ _ (withCell_next _ _ _ h).2

theorem execPutchar_next (s t : State) (h : execPutchar s = .next t) :
    s.ptr < s.params.memSize ∧ t = advance (callOut (s.readByte s.ptr) s) := by
  obtain ⟨hp, h⟩ := withCell_next _ _ _ h
  exact ⟨hp, (Host.Outcome.next.inj h).symm⟩

theorem execGetchar_next (s t : State) (h : execGetchar s = .next t) :
    s.ptr < s.params.memSize ∧
    t = advance { s with port := (callIn s).2.port, mem := Memory.write s.mem s.ptr (wrap8 (callIn s).1) } := by
  obtain ⟨hp, h⟩ := storeCell_next _ _ _ h
  rw [callIn_snd] at h
  exact ⟨by simpa using hp, h⟩

theorem execLoopstart_next (s t : State) (h : execLoopstart s = .next t) :
    (s.bktid = bktMax s ∧ t = raise .depthOverflow s.pc 0x5B s) ∨
    (s.bktid ≠ bktMax s ∧ s.ptr < s.params.memSize ∧
      ((s.readByte s.ptr = 0#8 ∧ t = advance { s with bktid := s.bktid + 1, bktctr := s.bktid + 1 }) ∨
       (s.readByte s.ptr ≠ 0#8 ∧ s.params.stackDepth = some s.lrs.length ∧ t = raise .stackOverflow s.pc 0x5B s) ∨
       (s.readByte s.ptr ≠ 0#8 ∧ s.params.stackDepth ≠ some s.lrs.length ∧
          t = advance { s with bktid := s.bktid + 1, lrs := s.pc :: s.lrs }))) := by
  unfold execLoopstart at h
  split at h
  · exact .inl ⟨‹_›, (Host.Outcome.next.inj h).symm⟩
  · obtain ⟨hp, h⟩ := withCell_next _ _ _ h
    refine .inr ⟨‹_›, hp, ?_⟩
    simp only [cellIsZero_iff, lrsFull_iff] at h
    split at h
    · exact .inl ⟨‹_›, (Host.Outcome.next.inj h).symm⟩
    · split at h
      · exact .inr (.inl ⟨‹_›, ‹_›, (Host.Outcome.next.inj h).symm⟩)
      · exact .inr (.inr ⟨‹_›, ‹_›, (Host.Outcome.next.inj h).symm⟩)

theorem execLoopend_next (s t : State) (h : execLoopend s = .next t) :
    (s.lrs = [] ∧ t = raise .loopStackUnderflow s.pc 0x5D s) ∨
    (∃ a rest, s.lrs = a :: rest ∧ s.ptr < s.params.memSize ∧
      t = commit { s with bktid := bktPred s, lrs := rest } (if s.readByte s.ptr = 0#8 then s.pc + 1 else a)) := by
  unfold execLoopend lrsPop at h
  cases hl : s.lrs with
  | nil => simp only [hl] at h; exact .inl ⟨rfl, (Host.Outcome.next.inj h).symm⟩
  | cons a rest =>
    simp only [hl, cellIsZero_iff] at h
    obtain ⟨hp, h⟩ := withCell_next _ _ _ h
    refine .inr ⟨a, rest, rfl, hp, ?_⟩
    split at h <;> rename_i hz <;> simp only [hz, if_true, if_false] <;> exact (Host.Outcome.next.inj h).symm

theorem execPop_next (s t : State) (h : execPop s = .next t) :
    s.ptr < s.params.memSize ∧ t = advance { s with ss := s.readByte s.ptr } := by
  obtain ⟨hp, h⟩ := withCell_next _ _ _ h
  exact ⟨hp, (Host.Outcome.next.inj h).symm⟩

theorem execJump_next (s t : State) (h : execJump s = .next t) :
    s.ptr < s.params.memSize ∧
    ((s.pcend < jumpTarget s (s.readByte s.ptr) ∧ t = raise .jumpRange s.pc 0x40 s) ∨
     (jumpTarget s (s.readByte s.ptr) ≤ s.pcend ∧ t = commit s (jumpTarget s (s.readByte s.ptr)))) := by
  obtain ⟨hp, h⟩ := withCell_next _ _ _ h
  refine ⟨hp, ?_⟩
  split at h
  · exact .inl ⟨‹_›, (Host.Outcome.next.inj h).symm⟩
  · exact .inr ⟨Nat.not_lt.1 ‹_›, (Host.Outcome.next.inj h).symm⟩

end Sys2Proof.Machine
end

