-- ==== Sys2Proof/Laws/Step.lean ====
section
/-! SUPPORT. What a step can do: forwards, the answer of each phase where it is reached; backwards, `step_next`, the one
inversion lemma from which the claims about steps are derived. -/

namespace Sys2Proof.Machine

theorem modeGate_of (s : State) (h1 : s.mode ≠ .uninitialized) (h2 : s.mode ≠ .faulted) : modeGate s = none := by
  unfold modeGate
  split <;> simp_all

theorem beforeFetch_of (s : State) (h : Fetches s) : beforeFetch s = none := by
  obtain ⟨h1, h2, h3, h4⟩ := h
  have h5 : s.pc ≠ s.pcend := by omega
  simp [beforeFetch, modeGate_of s h1 h2, haltTest, h5, breakpointTest, h4]

/-- A step that fetches runs phases 5 to 9 on the byte at `PC`. -/
theorem step_of_fetches (s : State) (b : Byte) (h : Fetches s) (hb : s.params.prog[s.pc]? = some b) :
    step s = stepByte exec b s := by
  simp [step, stepWith, beforeFetch_of s h, fetch, h.2.2.1, progRead, hb]

theorem commentFilter_of (s : State) (b : Byte) (h : ¬(s.params.ext = true ∧ s.comt = true)) :
    commentFilter b s = none := by
  have : inComment s = false := by
    cases he : inComment s
    · rfl
    · simp only [inComment, Bool.and_eq_true] at he
      exact absurd he h
  simp [commentFilter, this]

/-- Everything a step can have done when it answers a next state. -/
theorem step_next (s t : State) (h : step s = .next t) :
    (s.mode = .uninitialized ∧ t = withResult s .refused) ∨
    (s.mode = .faulted ∧ t = withResult s (.fault s.fcause s.fpc s.fval)) ∨
    (s.mode ≠ .uninitialized ∧ s.mode ≠ .faulted ∧ s.pc = s.pcend ∧
      t = withResult { s with mode := .halted } .halt) ∨
    (s.mode ≠ .uninitialized ∧ s.mode ≠ .faulted ∧ s.pc ≠ s.pcend ∧ s.bkptEn = true ∧ s.pc = s.bkpt ∧
      s.mode ≠ .breakpointHit ∧ t = withResult { s with mode := .breakpointHit } (.brk s.pc)) ∨
    (Fetches s ∧ ∃ b, s.params.prog[s.pc]? = some b ∧
      ((s.params.ext = true ∧ s.comt = true ∧
          t = advance (if b = 0x0A#8 then { s with comt := false } else s)) ∨
       (¬(s.params.ext = true ∧ s.comt = true) ∧ decode s.params.ext b = .invalid ∧
          t = raise .invalidInstruction s.pc b s) ∨
       (∃ i, ¬(s.params.ext = true ∧ s.comt = true) ∧ decode s.params.ext b = .instr i ∧ 0 < s.bktctr ∧
          t = advance (if i = .loopend then { s with bktctr := s.bktctr - 1 } else s)) ∨
       (∃ i, Executes s i ∧ encode i = b ∧ i.wf s.params.ext = true ∧ exec i s = .next t))) := by
  by_cases h1 : s.mode = .uninitialized
  · refine .inl ⟨h1, ?_⟩
    simp only [step, stepWith, beforeFetch, modeGate, h1] at h
    exact (Host.Outcome.next.inj h).symm
  by_cases h2 : s.mode = .faulted
  · refine .inr (.inl ⟨h2, ?_⟩)
    simp only [step, stepWith, beforeFetch, modeGate, h2] at h
    exact (Host.Outcome.next.inj h).symm
  refine .inr (.inr ?_)
  by_cases h3 : s.pc = s.pcend
  · refine .inl ⟨h1, h2, h3, ?_⟩
    simp only [step, stepWith, beforeFetch, modeGate_of s h1 h2, haltTest, if_pos h3] at h
    exact (Host.Outcome.next.inj h).symm
  refine .inr ?_
  by_cases h4 : s.bkptEn = true ∧ s.pc = s.bkpt ∧ s.mode ≠ .breakpointHit
  · refine .inl ⟨h1, h2, h3, h4.1, h4.2.1, h4.2.2, ?_⟩
    simp only [step, stepWith, beforeFetch, modeGate_of s h1 h2, haltTest, if_neg h3, breakpointTest, if_pos h4] at h
    exact (Host.Outcome.next.inj h).symm
  refine .inr ?_
  have h5 : s.pc < s.pcend ∧ ∃ b, s.params.prog[s.pc]? = some b := by
    simp only [step, stepWith, beforeFetch, modeGate_of s h1 h2, haltTest, if_neg h3, breakpointTest, if_neg h4] at h
    cases hf : fetch s with
    | none => rw [hf] at h; cases h
    | some b =>
      unfold fetch at hf
      split at hf
      · exact ⟨‹_›, b, hf⟩
      · cases hf
  obtain ⟨h5, b, hb⟩ := h5
  have hf : Fetches s := ⟨h1, h2, h5, h4⟩
  refine ⟨hf, b, hb, ?_⟩
  rw [step_of_fetches s b hf hb] at h
  by_cases hc : s.params.ext = true ∧ s.comt = true
  · refine .inl ⟨hc.1, hc.2, ?_⟩
    simp only [stepByte, commentFilter, inComment, hc.1, hc.2, Bool.and_self, if_true] at h
    exact (Host.Outcome.next.inj h).symm
  refine .inr ?_
  simp only [stepByte, commentFilter_of s b hc] at h
  cases hd : decode s.params.ext b with
  | invalid =>
    rw [hd] at h
    exact .inl ⟨hc, rfl, (Host.Outcome.next.inj h).symm⟩
  | instr i =>
    refine .inr ?_
    rw [hd] at h
    by_cases hk : 0 < s.bktctr
    · refine .inl ⟨i, hc, rfl, hk, ?_⟩
      simp only [skipFilter, inSkip, hk, decide_true, if_true] at h
      exact (Host.Outcome.next.inj h).symm
    · refine .inr ⟨i, ⟨hf, hc, by omega, b, hb, hd⟩, (decode_instr _ _ _ hd).1, (decode_instr _ _ _ hd).2, ?_⟩
      simpa only [skipFilter, inSkip, hk, decide_false, Bool.false_eq_true, if_false] using h

/-! ### Runs of several steps -/

@[simp] theorem run_zero (s : State) : Host.Core.run core 0 s = .next s := rfl

/-- A run whose first step answers `t` is the rest of the run from `t`. -/
theorem run_succ_of_next (n : Nat) (s t : State) (h : step s = .next t) :
    Host.Core.run core (n + 1) s = Host.Core.run core n t := by
  have hc : core.step s = .next t := h
  simp only [Host.Core.run, hc]

end Sys2Proof.Machine
end

