-- ==== Sys2Proof/Tests/Slice0.lean ====
section
/-! SUPPORT. The model's own tests. Expected values are those of 95_test_vectors.md (V<n>, P<n>) and of the examples in
the instructions' rules; the witnesses show that the hypotheses of the statements can be met. -/

namespace Sys2Proof.Tests

open Sys2Proof.Machine

/-! ### Small states -/

/-- A launch of a program with given parameters: power-on, then `INIT`. -/
def launchWith (p : Params) : State := construct p State.reset

/-- A launch with the default parameters. -/
def launch (prog : List Byte) : State := launchWith { prog := prog }

/-- A launch with `EXT = 1`. -/
def launchExt (prog : List Byte) : State := launchWith { prog := prog, ext := true }

/-- A running machine at `pc` whose cell 0 holds `v`. -/
def runningAt (s : State) (pc : Nat) (v : Byte) : State :=
  { s with mode := .running, pc := pc, mem := Memory.write [] 0 v }

/-- The state a step answers. -/
def stateOf (o : Out) : State :=
  match o with
  | .next t => t
  | .fault _ => { State.reset with mode := .uninitialized }
  | .refused _ => { State.reset with mode := .uninitialized }

/-! ### Well-formedness: the gate `EXT` (R150) -/

theorem test_wf_refuses_comment_when_ext_off : Instr.wf false .comment = false := by decide
theorem test_wf_refuses_syscall_when_ext_off : Instr.wf false .syscall = false := by decide
theorem test_wf_accepts_comment_when_ext_on : Instr.wf true .comment = true := by decide
theorem test_wf_accepts_core_when_ext_off : Instr.wf false .loopend = true := by decide

/-! ### Decoding: the words of 30_encoding.md R72 and R73, bit by bit -/

theorem test_decode_incp : decode false 0b00111110#8 = .instr .incp := by decide
theorem test_decode_decp : decode false 0b00111100#8 = .instr .decp := by decide
theorem test_decode_inc : decode false 0b00101011#8 = .instr .inc := by decide
theorem test_decode_dec : decode false 0b00101101#8 = .instr .dec := by decide
theorem test_decode_putchar : decode false 0b00101110#8 = .instr .putchar := by decide
theorem test_decode_getchar : decode false 0b00101100#8 = .instr .getchar := by decide
theorem test_decode_loopstart : decode false 0b01011011#8 = .instr .loopstart := by decide
theorem test_decode_loopend : decode false 0b01011101#8 = .instr .loopend := by decide
theorem test_decode_comment : decode true 0b00100011#8 = .instr .comment := by decide
theorem test_decode_newline : decode true 0b00001010#8 = .instr .newline := by decide
theorem test_decode_wsTab : decode true 0b00001001#8 = .instr .wsTab := by decide
theorem test_decode_wsCr : decode true 0b00001101#8 = .instr .wsCr := by decide
theorem test_decode_wsSp : decode true 0b00100000#8 = .instr .wsSp := by decide
theorem test_decode_push : decode true 0b00101000#8 = .instr .push := by decide
theorem test_decode_pop : decode true 0b00101001#8 = .instr .pop := by decide
theorem test_decode_jump : decode true 0b01000000#8 = .instr .jump := by decide
theorem test_decode_syscall : decode true 0b00100110#8 = .instr .syscall := by decide

/-- V43, V45: an extension byte is `INVALID` when `EXT = 0`. -/
theorem test_decode_newline_ext_off : decode false 0x0A#8 = .invalid := by decide

/-- V46: vertical tab, `!` and 0xFF are `INVALID` with `EXT = 1`. -/
theorem test_decode_invalid_ext_on :
    decode true 0x0B#8 = .invalid ∧ decode true 0x21#8 = .invalid ∧ decode true 0xFF#8 = .invalid := by decide

theorem test_decodeTableWord_jump : decodeTableWord 8 64 = some .jump := by decide
theorem test_decodeTableWord_none : decodeTableWord 8 0 = none := by decide

/-! ### Instructions: one step each -/

/-- V1. -/
theorem test_incp_moves : (stateOf (step (launch [0x3E]))).ptr = 1 ∧ (stateOf (step (launch [0x3E]))).pc = 1 := by decide

/-- V5, last step: `MEM_SIZE = 4`, `PTR = 3`. -/
theorem test_incp_faults_at_last_cell :
    let t := stateOf (exec .incp { launchWith { memSize := 4, prog := [0x3E, 0x3E, 0x3E, 0x3E] } with ptr := 3, pc := 3 })
    t.port.result = .fault .pointerRange 3 0x3E ∧ t.ptr = 3 ∧ t.pc = 3 ∧ t.mode = .faulted := by decide

/-- R112's example. -/
theorem test_decp_moves : (stateOf (exec .decp { launch [0x3C] with ptr := 5 })).ptr = 4 := by decide

/-- V2. -/
theorem test_decp_faults_at_zero :
    let t := stateOf (step (launch [0x3C]))
    t.fcause = .pointerRange ∧ t.fpc = 0 ∧ t.fval = 0x3C ∧ t.ptr = 0 ∧ t.pc = 0 ∧ t.mode = .faulted := by decide

/-- V9: 255 becomes 0, and the memory is empty again. -/
theorem test_inc_wraps : (stateOf (step (runningAt (launch [0x2B]) 0 255))).mem = [] := by decide

/-- V12, second step: `+` at `PTR = 1` leaves cell 0. -/
theorem test_inc_other_cell :
    (stateOf (exec .inc { launch [0x3E, 0x2B] with ptr := 1, mem := [(0, 7)] })).mem = [(0, 7), (1, 1)] := by decide

/-- V10. -/
theorem test_dec_wraps : (stateOf (step (launch [0x2D]))).readByte 0 = 255#8 := by decide

/-- P4, step 16: `-` on 1 gives 0. -/
theorem test_dec_to_zero : (stateOf (exec .dec (runningAt (launch [0x2D]) 0 1))).mem = [] := by decide

/-- R121's example. -/
theorem test_putchar_outputs :
    let s := runningAt (launch [0x2E]) 0 5
    (stateOf (step s)).port.events = [.out 5 s.view] := by decide

/-- V25, second step. -/
theorem test_putchar_unset :
    let t := stateOf (step (runningAt (launchWith { prog := [0x2B, 0x2E], outPresent := false }) 1 1))
    t.port.events = [] ∧ t.pc = 2 ∧ t.readByte 0 = 1#8 := by decide

/-- V21, V22: the callback returns -1, then 461. -/
theorem test_getchar_truncates :
    let s := launch [0x2C, 0x2C]
    let t := stateOf (step { s with port := { s.port with answers := [-1, 461] } })
    t.readByte 0 = 255#8 ∧ (stateOf (step t)).readByte 0 = 0xCD#8 := by decide

/-- V24, second step: no call, and the cell becomes 0. -/
theorem test_getchar_unset :
    let t := stateOf (step (runningAt (launchWith { prog := [0x2B, 0x2C], inPresent := false }) 1 1))
    t.mem = [] ∧ t.port.events = [] ∧ t.port.inCalls = 0 := by decide

/-- R131's two examples. -/
theorem test_loopstart_enters_and_skips :
    let s := stateOf (step (runningAt (launch [0x2D, 0x5B, 0x2B, 0x5B]) 1 255))
    (s.bktid = 1 ∧ s.lrs = [1] ∧ s.bktctr = 0 ∧ s.pc = 2) ∧
    (let t := stateOf (step { s with pc := 3, mem := [] })
     t.bktid = 2 ∧ t.bktctr = 2 ∧ t.lrs = [1] ∧ t.pc = 4) := by decide

/-- V37 (`BKT_W = 2`) and V38 (`STACK_DEPTH = 2`), last steps. -/
theorem test_loopstart_overflows :
    (stateOf (exec .loopstart { runningAt (launchWith { bktW := 2 }) 4 1 with bktid := 3, lrs := [3, 2, 1] })).port.result =
      .fault .depthOverflow 4 0x5B ∧
    (stateOf (exec .loopstart { runningAt (launchWith { stackDepth := some 2 }) 3 1 with bktid := 2, lrs := [2, 1] })).port.result =
      .fault .stackOverflow 3 0x5B := by decide

/-- R132's two examples. -/
theorem test_loopend_exits_and_branches :
    (let t := stateOf (exec .loopend { runningAt (launch []) 4 0 with bktid := 1, lrs := [1] })
     t.bktid = 0 ∧ t.lrs = [] ∧ t.pc = 5) ∧
    (let t := stateOf (exec .loopend { runningAt (launch []) 9 1 with bktid := 1, lrs := [2] })
     t.bktid = 0 ∧ t.lrs = [] ∧ t.pc = 2) := by decide

/-- V31, V49: the fault, `BKTID` not decremented, and the same answer again. -/
theorem test_loopend_underflows :
    let t := stateOf (step (launch [0x5D]))
    t.port.result = .fault .loopStackUnderflow 0 0x5D ∧ t.bktid = 0 ∧ stateOf (step t) = t := by decide

/-- R151's example. -/
theorem test_comment_sets : (stateOf (step (launchExt [0x23]))).comt = true ∧ (stateOf (step (launchExt [0x23]))).pc = 1 := by
  decide

/-- R152's example, and V43. -/
theorem test_newline :
    (stateOf (step (launchExt [0x0A]))).port.result = .cont ∧
    (stateOf (step (runningAt (launch [0x2B, 0x0A, 0x2E]) 1 1))).port.result = .fault .invalidInstruction 1 0x0A := by decide

/-- V71: TAB, CR, space. -/
theorem test_wsTab : stateOf (exec .wsTab (launchExt [0x09])) = advance (launchExt [0x09]) := by decide
theorem test_wsCr : (stateOf (step { launchExt [0x0D] with comt := true })).comt = true := by decide
theorem test_wsSp : (stateOf (step (launchExt [0x20]))).pc = 1 := by decide

/-- V70: `(` and `&` change nothing, `)` loads `SS`. -/
theorem test_push : (stateOf (step { launchExt [0x28] with ss := 3 })).ss = 3 := by decide
theorem test_pop : (stateOf (step (runningAt (launchExt [0x29]) 0 3))).ss = 3 := by decide
theorem test_syscall : (stateOf (step (launchExt [0x26]))).port.events = [] := by decide

/-- V75 to V79, the `@` of `,@+++.`: both values of `AT_POSTINC`, the end of the program, and one past it. -/
theorem test_jump_targets :
    let prog : List Byte := [0x2C, 0x40, 0x2B, 0x2B, 0x2B, 0x2E]
    let go := fun (post : Bool) (v : Byte) =>
      (stateOf (step (runningAt (launchWith { prog := prog, ext := true, atPostinc := post }) 1 v))).pc
    go true 3 = 4 ∧ go false 3 = 3 ∧ go true 5 = 6 ∧ go false 6 = 6 := by decide

theorem test_jump_faults :
    (stateOf (step (runningAt (launchExt [0x2C, 0x40, 0x2B, 0x2B, 0x2B, 0x2E]) 1 255))).port.result =
      .fault .jumpRange 1 0x40 := by decide

/-! ### The sequencer and the commands -/

/-- V48. -/
theorem test_step_refused :
    let s := powerOn { prog := [0x2B] } State.reset
    stateOf (step s) = { s with port := { s.port with result := .refused } } := by decide

/-- V47: the empty program halts on its first step. -/
theorem test_empty_program_halts : (stateOf (step State.reset)).port.result = .halt := by decide

/-- V52, V53: a breakpoint at 0 fires first; one at `PROG_LEN` never fires. -/
theorem test_breakpoint :
    (stateOf (step (setBkpt 0 (launch [0x2B, 0x2E])))).port.result = .brk 0 ∧
    (stateOf (step (setBkpt 1 { launch [0x2B] with pc := 1 }))).port.result = .halt := by decide

/-- V57: the break comes before the decode, and the resumed step faults. -/
theorem test_breakpoint_then_fault :
    let t := stateOf (step (setBkpt 1 (runningAt (launch [0x2B, 0x78]) 1 1)))
    t.port.result = .brk 1 ∧ (stateOf (step t)).port.result = .fault .invalidInstruction 1 0x78 := by decide

/-- V41: an invalid byte faults in skip mode too. -/
theorem test_invalid_in_skip :
    let t := stateOf (step { launch [0x5B, 0x78, 0x5D] with mode := .running, pc := 1, bktid := 1, bktctr := 1 })
    t.port.result = .fault .invalidInstruction 1 0x78 ∧ t.bktctr = 1 := by decide

/-- P3, step 7: a `]` in skip mode counts down, and neither pops nor touches `BKTID`. -/
theorem test_skip_loopend :
    let t := stateOf (step { launch [0x5D] with mode := .running, bktid := 2, bktctr := 1, lrs := [1] })
    t.bktctr = 0 ∧ t.bktid = 2 ∧ t.lrs = [1] ∧ t.pc = 1 := by decide

/-- V72, P9: in a comment a `]` has no effect and LF ends it. -/
theorem test_comment_filter :
    let t := stateOf (step { launchExt [0x5D, 0x0A] with comt := true })
    t.comt = true ∧ t.port.result = .cont ∧ (stateOf (step t)).comt = false := by decide

/-- V61, V63: `INIT` leaves `Faulted`, clears the record, and keeps the breakpoint. -/
theorem test_init :
    let t := init (setBkpt 1 (stateOf (step (launch [0x5D]))))
    t.mode = .ready ∧ t.fcause = .none ∧ t.fpc = 0 ∧ t.fval = 0 ∧ t.bkpt = 1 ∧ t.bkptEn = true ∧ t.pcend = 1 := by decide

/-- V53: `RUN` of `+` halts after two steps, not after one. -/
theorem test_run :
    (runFuel 1 (launch [0x2B])).isNone = true ∧
    (runFuel 2 (launch [0x2B])).map (fun o => (stateOf o).port.result) = some .halt := by decide

/-- The host's placing of a table word: on `State.reset` it changes the program, its end and `EXT` only. -/
theorem test_withFetchWord :
    State.reset.withFetchWord 8 0x40 = { State.reset with params := { prog := [0x40], ext := true }, pcend := 1 } ∧
    State.reset.withFetchWord 8 0x2B = { State.reset with params := { prog := [0x2B] }, pcend := 1 } := by decide

/-- R65, R122: during the Input callback the host still reads the old cell and the `PC` of the `,`. -/
theorem test_callbackRead :
    let s := runningAt (launch [0x2B, 0x2C]) 1 7
    let t := stateOf (step { s with port := { s.port with answers := [5] } })
    t.port.events.map (callbackRead (.cell 0)) = [some 7] ∧ t.port.events.map (callbackRead .pc) = [some 1] ∧
    debugRead (.cell 0) t = some 5 ∧ debugRead .pc t = some 2 := by decide

theorem test_debugRead :
    debugRead .mode (launch []) = some 1 ∧ debugRead (.lrsEntry 0) { launch [] with lrs := [2, 1] } = some 1 ∧
    debugRead (.cell 8192) (launch []) = none := by decide

/-! ### Witnesses: the hypotheses of the statements can be met -/

/-- `-[+.]` (P2) after its second step: inside an entered loop. -/
def inLoop : State :=
  { runningAt (launch [0x2D, 0x5B, 0x2B, 0x2E, 0x5D]) 2 255 with bktid := 1, lrs := [1] }

/-- `+[]` (V35) at its `]`, about to branch back. -/
def atLoopend : State :=
  { runningAt (launch [0x2B, 0x5B, 0x5D]) 2 1 with bktid := 1, lrs := [1] }

/-- `#a` inside the comment, `EXT = 1`. -/
def inComment1 : State := { runningAt (launchExt [0x23, 0x61, 0x62, 0x0A]) 1 0 with comt := true }

/-- `[-]` (V32) inside its skip region. -/
def inSkip1 : State := { runningAt (launch [0x5B, 0x2D, 0x5D]) 1 0 with bktid := 1, bktctr := 1 }

/-- A machine that has faulted on `]` (V31). -/
def faulted1 : State := stateOf (step (launch [0x5D]))

/-- A machine stopped at a breakpoint at 0 (V52). -/
def broken1 : State := stateOf (step (setBkpt 0 (launch [0x2B, 0x2E])))

theorem fetches_of (s : State) (h : s.mode ≠ .uninitialized ∧ s.mode ≠ .faulted ∧ s.pc < s.pcend ∧
    ¬(s.bkptEn = true ∧ s.pc = s.bkpt ∧ s.mode ≠ .breakpointHit)) : Fetches s := h

theorem executes_of (s : State) (i : Instr) (hf : Fetches s) (hc : ¬(s.params.ext = true ∧ s.comt = true))
    (hk : s.bktctr = 0) (b : Byte) (hb : s.params.prog[s.pc]? = some b) (hd : decode s.params.ext b = .instr i) :
    Executes s i := ⟨hf, hc, hk, b, hb, hd⟩

theorem wf_of (s : State) (d : Nat) (h : s.params.stackDepth = some d) (h1 : 1 ≤ s.params.memSize)
    (h2 : s.params.progLen ≤ 2 ^ s.params.pcW - 1) (h3 : 1 ≤ s.params.pcW) (h4 : 1 ≤ s.params.bktW) (h5 : 1 ≤ d) :
    s.params.Wf := ⟨h1, h2, h3, h4, fun e he => by rw [h] at he; cases he; exact h5⟩

theorem depth_of (s : State) (d : Nat) (h : s.params.stackDepth = some d) (h1 : s.lrs.length ≤ d) :
    ∀ e, s.params.stackDepth = some e → s.lrs.length ≤ e := fun e he => by rw [h] at he; cases he; exact h1

theorem inLoop_inv : inLoop.Inv :=
  ⟨wf_of _ 65535 rfl (by decide) (by decide) (by decide) (by decide) (by decide), by decide, by decide, by decide,
   by decide, by decide, by decide, by decide, by decide, by decide, by decide, by decide, by decide, by decide,
   depth_of _ 65535 rfl (by decide), by decide, by decide, by decide, by decide, by decide⟩

theorem atLoopend_inv : atLoopend.Inv :=
  ⟨wf_of _ 65535 rfl (by decide) (by decide) (by decide) (by decide) (by decide), by decide, by decide, by decide,
   by decide, by decide, by decide, by decide, by decide, by decide, by decide, by decide, by decide, by decide,
   depth_of _ 65535 rfl (by decide), by decide, by decide, by decide, by decide, by decide⟩

theorem witness_DecodeAndEncodeAgree : Instr.wf false .inc = true ∧ decode true 0x40#8 = .instr .jump := by decide

theorem witness_StepRunsDecodedInstruction : Executes inLoop .inc :=
  executes_of _ _ (fetches_of _ (by decide)) (by decide) (by decide) 0x2B (by decide) (by decide)

/-- Every instruction is executed somewhere: the byte at `PC` of a one-byte launch with `EXT = 1`. -/
theorem witness_every_instruction_executes (i : Instr) : Executes (launchExt [encode i]) i := by
  cases i <;> exact executes_of _ _ (fetches_of _ (by decide)) (by decide) (by decide) _ rfl (by decide)

theorem witness_ModeGateRefusesOrRepeats :
    (powerOn {} State.reset).mode = .uninitialized ∧ faulted1.mode = .faulted ∧
    inLoop.mode ≠ .uninitialized ∧ inLoop.mode ≠ .faulted := by decide

theorem witness_HaltExactlyAtProgramEnd :
    State.reset.mode ≠ .uninitialized ∧ State.reset.mode ≠ .faulted ∧ State.reset.pc = State.reset.pcend ∧
    (stateOf (step State.reset)).port.result = .halt := by decide

theorem witness_BreakpointTestBeforeFetch_fires :
    let s := setBkpt 0 (launch [0x2B, 0x2E])
    s.mode ≠ .uninitialized ∧ s.mode ≠ .faulted ∧ s.mode ≠ .breakpointHit ∧ s.pc ≠ s.pcend ∧ s.bkptEn = true ∧
    s.pc = s.bkpt := by decide

theorem witness_BreakpointTestBeforeFetch_resumes :
    broken1.mode = .breakpointHit ∧ broken1.pc < broken1.pcend ∧ broken1.params.prog[broken1.pc]? = some 0x2B#8 := by decide

theorem witness_BreakOncePerPass :
    let s := setBkpt 0 (launch [0x2B, 0x2E])
    step s = .next broken1 ∧ broken1.port.result = .brk 0 ∧ ∃ u, step broken1 = .next u := ⟨rfl, rfl, _, rfl⟩

theorem witness_CommentFilterPassesByte :
    Fetches inComment1 ∧ inComment1.params.prog[inComment1.pc]? = some 0x61#8 ∧ inComment1.params.ext = true ∧
    inComment1.comt = true := ⟨fetches_of _ (by decide), by decide, by decide, by decide⟩

theorem witness_CommentFilterPassesByte_newline :
    let s := { inComment1 with pc := 3 }
    Fetches s ∧ s.params.prog[s.pc]? = some 0x0A#8 ∧ s.params.ext = true ∧ s.comt = true :=
  ⟨fetches_of _ (by decide), by decide, by decide, by decide⟩

theorem witness_InvalidByteFaults :
    let s := { inSkip1 with params := { inSkip1.params with prog := [0x5B, 0x78, 0x5D] } }
    Fetches s ∧ s.params.prog[s.pc]? = some 0x78#8 ∧ ¬(s.params.ext = true ∧ s.comt = true) ∧
    decode s.params.ext 0x78#8 = .invalid := ⟨fetches_of _ (by decide), by decide, by decide, by decide⟩

theorem witness_SkipFilterCountsLoopEnds :
    let s := { inSkip1 with pc := 2 }
    Fetches s ∧ s.params.prog[s.pc]? = some 0x5D#8 ∧ ¬(s.params.ext = true ∧ s.comt = true) ∧
    decode s.params.ext 0x5D#8 = .instr .loopend ∧ 0 < s.bktctr :=
  ⟨fetches_of _ (by decide), by decide, by decide, by decide, by decide⟩

theorem witness_StuckOutsideTheAddressSpaces_fetch :
    let s := { inLoop with pc := 6 }
    s.mode ≠ .uninitialized ∧ s.mode ≠ .faulted ∧ s.pcend < s.pc ∧
    ¬(s.bkptEn = true ∧ s.pc = s.bkpt ∧ s.mode ≠ .breakpointHit) := by decide

theorem witness_StuckOutsideTheAddressSpaces_data :
    let s := { inLoop with ptr := 8192 }
    s.params.memSize ≤ s.ptr ∧ s.bktid ≠ 2 ^ s.params.bktW - 1 ∧ s.lrs ≠ [] := by decide

/-- The results of R103 all occur. -/
theorem witness_WhatEachResultLeavesBehind :
    (stateOf (step (powerOn {} State.reset))).port.result = .refused ∧
    (stateOf (step State.reset)).port.result = .halt ∧ broken1.port.result = .brk 0 ∧
    faulted1.port.result = .fault .loopStackUnderflow 0 0x5D ∧ (stateOf (step inLoop)).port.result = .cont := by decide

theorem witness_IncpMovesRightOrFaults :
    (let s := { launch [0x3E] with ptr := 8191 }; s.ptr = s.params.memSize - 1) ∧
    (let s := { launch [0x3E] with ptr := 8190 }; s.ptr ≠ s.params.memSize - 1) := by decide

theorem witness_DecpMovesLeftOrFaults : (launch [0x3C]).ptr = 0 ∧ { launch [0x3C] with ptr := 1 }.ptr ≠ 0 := by decide

theorem witness_cell_in_memory :
    let s := { runningAt (launch [0x2B]) 0 255 with ptr := 8191 }
    Memory.wf s.mem = true ∧ s.ptr < s.params.memSize := by decide

theorem witness_PutcharOutputsCell :
    ((launch [0x2E]).ptr < (launch [0x2E]).params.memSize ∧ (launch [0x2E]).params.outPresent = true) ∧
    (launchWith { outPresent := false }).params.outPresent = false := by decide

theorem witness_GetcharStoresLowByte :
    let s := launch [0x2C]
    let u := launchWith { prog := [0x2C], inPresent := false }
    (Memory.wf s.mem = true ∧ s.ptr < s.params.memSize ∧ s.params.inPresent = true) ∧
    (Memory.wf u.mem = true ∧ u.ptr < u.params.memSize ∧ u.params.inPresent = false) := by decide

theorem witness_InputAnswerIsListedOrFree :
    let s := launch [0x2C]
    let u := { s with port := { s.port with answers := [461] } }
    (s.params.inPresent = true ∧ s.port.answers = [] ∧ ∃ t, exec .getchar s = .next t) ∧
    (u.params.inPresent = true ∧ u.port.answers = [461] ∧ ∃ t, exec .getchar u = .next t) :=
  ⟨⟨rfl, rfl, _, rfl⟩, rfl, rfl, _, rfl⟩

theorem witness_LoopstartEntersSkipsOrFaults :
    (let s := { inLoop with bktid := 65535 }; s.bktid = 2 ^ s.params.bktW - 1) ∧
    (let s := { inLoop with params := { inLoop.params with stackDepth := some 1 } }
     s.bktid ≠ 2 ^ s.params.bktW - 1 ∧ s.ptr < s.params.memSize ∧ s.readByte s.ptr ≠ 0#8 ∧
       s.params.stackDepth = some s.lrs.length) ∧
    (let s := { inLoop with bktid := 65534 }
     s.bktid ≠ 2 ^ s.params.bktW - 1 ∧ s.ptr < s.params.memSize ∧ s.readByte s.ptr ≠ 0#8 ∧
       s.params.stackDepth ≠ some s.lrs.length) ∧
    (let s := launch [0x5B]
     s.bktid ≠ 2 ^ s.params.bktW - 1 ∧ s.ptr < s.params.memSize ∧ s.readByte s.ptr = 0#8) := by decide

theorem witness_LoopendBranchesExitsOrFaults :
    (launch [0x5D]).lrs = [] ∧ atLoopend.lrs = 1 :: [] ∧ atLoopend.ptr < atLoopend.params.memSize ∧
    atLoopend.readByte atLoopend.ptr ≠ 0#8 ∧ { atLoopend with mem := [] }.readByte atLoopend.ptr = 0#8 := by decide

theorem witness_NoOpsOnlyAdvance : 0x80 ≤ (0x80#8).toNat ∧ 0x80 ≤ (0xFF#8).toNat := by decide

theorem witness_JumpGoesToCellOrFaults :
    let s := runningAt (launchExt [0x2C, 0x40]) 1 1
    let u := runningAt (launchExt [0x2C, 0x40]) 1 2
    (s.ptr < s.params.memSize ∧ (s.readByte s.ptr).toNat + 1 ≤ s.pcend) ∧
    (u.ptr < u.params.memSize ∧ u.pcend < (u.readByte u.ptr).toNat + 1) := by decide

/-- The frames speak of steps that happen: each group answers a next state, and by fault entry too where it can fault. -/
theorem witness_FrameOfPointerMoves :
    (∃ t, exec .incp inLoop = .next t ∧ t.mode = .running) ∧ (∃ t, exec .decp inLoop = .next t ∧ t.mode = .faulted) :=
  ⟨⟨_, rfl, rfl⟩, _, rfl, rfl⟩

theorem witness_FrameOfCellWrites :
    (∃ t, exec .inc inLoop = .next t) ∧ (∃ t, exec .dec inLoop = .next t) ∧
    (∃ t, exec .getchar { inLoop with params := { inLoop.params with inPresent := false } } = .next t) :=
  ⟨⟨_, rfl⟩, ⟨_, rfl⟩, _, rfl⟩

theorem witness_FrameOfPutchar : ∃ t, exec .putchar inLoop = .next t := ⟨_, rfl⟩

theorem witness_FrameOfLoops :
    (∃ t, exec .loopstart inLoop = .next t ∧ t.mode = .running) ∧
    (∃ t, exec .loopend { inLoop with lrs := [] } = .next t ∧ t.mode = .faulted) := ⟨⟨_, rfl, rfl⟩, _, rfl, rfl⟩

theorem witness_FrameOfExtensionSet :
    Instr.isCore .jump = false ∧ (∃ t, exec .jump { inLoop with mem := [] } = .next t ∧ t.mode = .running) ∧
    Instr.isCore .pop = false ∧ (∃ t, exec .pop inLoop = .next t) := ⟨rfl, ⟨_, rfl, rfl⟩, rfl, _, rfl⟩

theorem witness_EveryStepKeepsInvariant : inLoop.Inv ∧ ∃ t, step inLoop = .next t := ⟨inLoop_inv, _, rfl⟩

theorem witness_EveryStepKeepsMemoryCanonical :
    Memory.wf inLoop.mem = true ∧ ∃ t, step inLoop = .next t := ⟨by decide, _, rfl⟩

theorem witness_InitEstablishesInvariant : inLoop.params.Wf ∧ inLoop.bkpt < 2 ^ inLoop.params.pcW :=
  ⟨inLoop_inv.params_wf, by decide⟩

theorem witness_CommandsKeepInvariant :
    inLoop.Inv ∧ (∃ t, issue 0 (.setBkpt 65535) inLoop = some (.next t)) ∧ (∃ t, issue 9 .run inLoop = some (.next t)) :=
  ⟨inLoop_inv, ⟨_, rfl⟩, _, rfl⟩

theorem witness_NoStepIsStuck : inLoop.Inv := inLoop_inv

theorem witness_FaultEntryIsPrecise : ∃ t, exec .decp inLoop = .next t ∧ t.mode = .faulted := ⟨_, rfl, rfl⟩

theorem witness_FaultedIsAbsorbing : faulted1.mode = .faulted := by decide

theorem witness_MemoryChangesOnlyAtPointer : ∃ t, step inLoop = .next t ∧ t.readByte 0 ≠ inLoop.readByte 0 :=
  ⟨_, rfl, by decide⟩

theorem witness_StepsMovePc :
    (∃ t, step faulted1 = .next t ∧ t.port.result ≠ .cont) ∧ (∃ t, step atLoopend = .next t ∧ t.port.result = .cont) :=
  ⟨⟨_, rfl, by decide⟩, _, rfl, by decide⟩

theorem witness_EventsComeFromIoOnly : ∃ t, step { inLoop with pc := 3 } = .next t ∧ t.port.events ≠ [] :=
  ⟨_, rfl, by decide⟩

theorem witness_ExtensionOffKeepsCommentAndSs :
    let s := launch [encode .pop]
    s.params.ext = false ∧ Instr.isCore .pop = false ∧ Fetches s ∧ s.params.prog[s.pc]? = some (encode .pop) ∧
    ∃ t, step s = .next t := ⟨rfl, rfl, fetches_of _ (by decide), rfl, _, rfl⟩

theorem witness_SsAndDisabledBkptAreNotRead :
    (inLoop.bkptEn = false ∧ ∃ t, step inLoop = .next t) ∧
    (let s := { inLoop with pc := 3 }; s.bkptEn = false ∧ ∃ t, step s = .next t ∧ t.port.events ≠ []) :=
  ⟨⟨rfl, _, rfl⟩, rfl, _, rfl, by decide⟩

theorem witness_BktidCountsDepthAndSkips :
    (inLoop.lrs.length ≤ inLoop.bktid ∧ inLoop.bktid < 2 ^ inLoop.params.bktW) ∧
    (let s := launch [0x5B]
     s.lrs.length ≤ s.bktid ∧ s.bktid < 2 ^ s.params.bktW ∧ s.bktctr = 0 ∧ ∃ t, step s = .next t ∧ 0 < t.bktctr) :=
  ⟨by decide, by decide, by decide, by decide, _, rfl, by decide⟩

theorem witness_StackOverflowUnreachable :
    inLoop.Inv ∧ (∀ d, inLoop.params.stackDepth = some d → 2 ^ inLoop.params.bktW - 1 ≤ d) ∧
    inLoop.fcause ≠ .stackOverflow ∧ ∃ t, step inLoop = .next t :=
  ⟨inLoop_inv, fun d hd => by cases hd; decide, by decide, _, rfl⟩

theorem witness_TakenLoopendReentersLoop :
    atLoopend.Inv ∧ atLoopend.bkptEn = false ∧ Executes atLoopend .loopend ∧ atLoopend.readByte atLoopend.ptr ≠ 0#8 ∧
    ∃ t, step atLoopend = .next t ∧ t.mode ≠ .faulted :=
  ⟨atLoopend_inv, rfl,
   executes_of _ _ (fetches_of _ (by decide)) (by decide) (by decide) 0x5D (by decide) (by decide), by decide,
   _, rfl, by decide⟩

theorem witness_SkipRegionCountsLoopendBytes :
    inSkip1.mode ≠ .uninitialized ∧ inSkip1.mode ≠ .faulted ∧ inSkip1.bkptEn = false ∧ inSkip1.comt = false ∧
    inSkip1.pc + (1 + 1) ≤ inSkip1.pcend ∧ (inSkip1.params.prog.drop inSkip1.pc).take (1 + 1) = [0x2D#8, 0x5D#8] ∧
    (∀ b ∈ [0x2D#8, 0x5D#8], decode inSkip1.params.ext b ≠ .invalid) ∧
    ([0x2D#8, 0x5D#8].take 1).count 0x5D#8 < inSkip1.bktctr := by decide

theorem witness_CommentRegionHasNoEffect :
    inComment1.mode ≠ .uninitialized ∧ inComment1.mode ≠ .faulted ∧ inComment1.bkptEn = false ∧
    inComment1.params.ext = true ∧ inComment1.comt = true ∧ inComment1.pc + (1 + 1) ≤ inComment1.pcend ∧
    (inComment1.params.prog.drop inComment1.pc).take (1 + 1) = [0x61#8, 0x62#8] ∧ 0x0A#8 ∉ [0x61#8, 0x62#8] := by decide

theorem witness_PlusMinusRunAddsDifference :
    let s := launch [0x2D, 0x2D, 0x2B]
    s.mode ≠ .uninitialized ∧ s.mode ≠ .faulted ∧ s.bkptEn = false ∧ s.comt = false ∧ s.bktctr = 0 ∧
    Memory.wf s.mem = true ∧ s.ptr < s.params.memSize ∧ s.pc + 3 ≤ s.pcend ∧
    (s.params.prog.drop s.pc).take 3 = [0x2D#8, 0x2D#8, 0x2B#8] ∧
    (∀ b ∈ [0x2D#8, 0x2D#8, 0x2B#8], b = 0x2B#8 ∨ b = 0x2D#8) := by decide

theorem witness_LoopStackIsTextualNesting :
    0x40#8 ∉ inLoop.params.prog ∧ inLoop.bktid < 2 ^ inLoop.params.bktW ∧ NestedByText inLoop ∧
    (Executes inLoop .loopstart → inLoop.readByte inLoop.ptr ≠ 0#8) ∧ ∃ t, step inLoop = .next t :=
  ⟨by decide, by decide, by unfold NestedByText; decide, fun _ => by decide, _, rfl⟩

theorem witness_RelaunchReproducesRun :
    let t := launch [0x2D, 0x5B, 0x2B, 0x2E, 0x5D]
    inLoop.params = t.params ∧ inLoop.bkpt = t.bkpt ∧ inLoop.bkptEn = t.bkptEn ∧
    inLoop.port.answers = t.port.answers ∧ inLoop.port.inCalls = t.port.inCalls ∧
    ∃ u, Host.Core.run core 2 (init inLoop) = .next u :=
  ⟨by decide, by decide, by decide, by decide, by decide, _, rfl⟩

theorem witness_InitWritesEveryRegisterButBkpt :
    let s := setBkpt 0 (launch [0x2B])
    s.bkptEn = true ∧ s.bkpt = 0 ∧ 0 < s.params.prog.length := by decide

theorem witness_PowerOnThenInitConstructs :
    State.reset.bkpt = 0 ∧ State.reset.port.answers = [] ∧ State.reset.port.inCalls = 0 ∧ State.reset.port.events = [] := by
  decide

theorem witness_BreakpointCommandsWriteBkptOnly :
    65535 < 2 ^ inLoop.params.pcW ∧ inLoop.pcend = inLoop.params.progLen ∧ inLoop.pc ≤ inLoop.pcend ∧
    inLoop.params.progLen ≤ 5 ∧ ∃ t, step (setBkpt 5 inLoop) = .next t := ⟨by decide, by decide, by decide, by decide, _, rfl⟩

theorem witness_RunIsRepeatedStep :
    ∃ t, RunsTo { inLoop with pc := 5 } t := ⟨_, .stop rfl (by decide)⟩

theorem witness_CallbackReadsStartOfStep :
    (∃ t e, step { inLoop with pc := 3 } = .next t ∧ t.port.events = inLoop.port.events ++ [e]) ∧
    (∃ t e, step (launch [0x2C]) = .next t ∧ t.port.events = (launch [0x2C]).port.events ++ [e]) :=
  ⟨⟨_, _, rfl, rfl⟩, _, _, rfl, rfl⟩

end Sys2Proof.Tests
end

section
/-! PROOFS. Which faults a step can raise, and that `StackOverflow` is out of reach when the loop-return stack is at least
as deep as `BKTID` can count (00_scope.md R6, 60_exceptions.md R197). -/

namespace Sys2Proof.Machine

/-- The executed instruction `i` raises the cause `c` in the state `s`: one constructor per fault of phase 8
(60_exceptions.md R194 to R198). -/
inductive ExecRaises (s : State) : Instr → Cause → Prop where
  | incp (h : s.ptr = s.params.memSize - 1) : ExecRaises s .incp .pointerRange
  | decp (h : s.ptr = 0) : ExecRaises s .decp .pointerRange
  | depth (h : s.bktid = bktMax s) : ExecRaises s .loopstart .depthOverflow
  | stack (hid : s.bktid ≠ bktMax s) (hcell : s.readByte s.ptr ≠ 0#8)
      (hfull : s.params.stackDepth = some s.lrs.length) : ExecRaises s .loopstart .stackOverflow
  | underflow (h : s.lrs = []) : ExecRaises s .loopend .loopStackUnderflow
  | jump (h : s.pcend < jumpTarget s (s.readByte s.ptr)) : ExecRaises s .jump .jumpRange

/-- An executed instruction completes with the fault record as it was, or is exactly the fault entry of one of its causes. -/
theorem exec_completes_or_raises (i : Instr) (s t : State) (h : exec i s = .next t) :
    (t.mode = .running ∧ t.port.result = .cont ∧ SameRecord s t) ∨
    ∃ c, ExecRaises s i c ∧ t = raise c s.pc (encode i) s := by
  cases i with
  | incp =>
    obtain ⟨hp, rfl⟩ | ⟨-, rfl⟩ := execIncp_next s t h
    · exact .inr ⟨_, .incp hp, rfl⟩
    · exact .inl ⟨rfl, rfl, rfl, rfl, rfl⟩
  | decp =>
    obtain ⟨hp, rfl⟩ | ⟨-, rfl⟩ := execDecp_next s t h
    · exact .inr ⟨_, .decp hp, rfl⟩
    · exact .inl ⟨rfl, rfl, rfl, rfl, rfl⟩
  | inc => obtain ⟨-, rfl⟩ := execInc_next s t h; exact .inl ⟨rfl, rfl, rfl, rfl, rfl⟩
  | dec => obtain ⟨-, rfl⟩ := execDec_next s t h; exact .inl ⟨rfl, rfl, rfl, rfl, rfl⟩
  | putchar =>
    obtain ⟨-, rfl⟩ := execPutchar_next s t h
    rw [callOut_eq]
    exact .inl ⟨rfl, rfl, rfl, rfl, rfl⟩
  | getchar => obtain ⟨-, rfl⟩ := execGetchar_next s t h; exact .inl ⟨rfl, rfl, rfl, rfl, rfl⟩
  | loopstart =>
    obtain ⟨hid, rfl⟩ | ⟨hid, -, ⟨-, rfl⟩ | ⟨hcell, hfull, rfl⟩ | ⟨-, -, rfl⟩⟩ := execLoopstart_next s t h
    · exact .inr ⟨_, .depth hid, rfl⟩
    · exact .inl ⟨rfl, rfl, rfl, rfl, rfl⟩
    · exact .inr ⟨_, .stack hid hcell hfull, rfl⟩
    · exact .inl ⟨rfl, rfl, rfl, rfl, rfl⟩
  | loopend =>
    obtain ⟨hl, rfl⟩ | ⟨a, rest, -, -, rfl⟩ := execLoopend_next s t h
    · exact .inr ⟨_, .underflow hl, rfl⟩
    · exact .inl ⟨rfl, rfl, rfl, rfl, rfl⟩
  | pop => obtain ⟨-, rfl⟩ := execPop_next s t h; exact .inl ⟨rfl, rfl, rfl, rfl, rfl⟩
  | jump =>
    obtain ⟨-, ⟨hj, rfl⟩ | ⟨-, rfl⟩⟩ := execJump_next s t h
    · exact .inr ⟨_, .jump hj, rfl⟩
    · exact .inl ⟨rfl, rfl, rfl, rfl, rfl⟩
  | comment | newline | wsTab | wsCr | wsSp | push | syscall => cases h; exact .inl ⟨rfl, rfl, rfl, rfl, rfl⟩

/-- A step keeps `FCAUSE`, or it is a decode fault, or it executes an instruction that raises the new cause. -/
theorem step_fcause (s t : State) (h : step s = .next t) :
    t.fcause = s.fcause ∨ t.fcause = .invalidInstruction ∨ ∃ i, Executes s i ∧ ExecRaises s i t.fcause := by
  obtain ⟨-, rfl⟩ | ⟨-, rfl⟩ | ⟨-, -, -, rfl⟩ | ⟨-, -, -, -, -, -, rfl⟩ |
    ⟨-, b, -, ⟨-, -, rfl⟩ | ⟨-, -, rfl⟩ | ⟨i, -, -, -, rfl⟩ | ⟨i, hi, -, -, hex⟩⟩ := step_next s t h
  · exact .inl rfl
  · exact .inl rfl
  · exact .inl rfl
  · exact .inl rfl
  · exact .inl (by simp [apply_ite State.fcause])
  · exact .inr (.inl rfl)
  · exact .inl (by simp [apply_ite State.fcause])
  · obtain ⟨-, -, hrec, -, -⟩ | ⟨c, hc, rfl⟩ := exec_completes_or_raises i s t hex
    · exact .inl hrec
    · exact .inr (.inr ⟨i, hi, hc⟩)

/-- With `STACK_DEPTH` unbounded or at least `2^BKT_W - 1`, a full stack would hold as many entries as `BKTID` can
count, and there `[` raises `DepthOverflow` before it looks at the stack (R131, R196). -/
theorem not_execRaises_stackOverflow (s : State) (i : Instr) (hs : s.Inv)
    (hcap : ∀ d, s.params.stackDepth = some d → 2 ^ s.params.bktW - 1 ≤ d) : ¬ ExecRaises s i .stackOverflow := by
  intro h
  cases h with
  | stack hid _ hfull =>
    have hroom : 2 ^ s.params.bktW - 1 ≤ s.lrs.length := hcap _ hfull
    have hdepth : s.lrs.length ≤ s.bktid := hs.depth_le
    have hwidth : s.bktid < 2 ^ s.params.bktW := hs.bktid_lt
    exact hid (show s.bktid = 2 ^ s.params.bktW - 1 by omega)

/-- Settles O47: the one instruction that raises `StackOverflow` is `[`, and with such a stack it does not. -/
theorem stackOverflowUnreachable : Obligations.StackOverflowUnreachable := by
  intro s t hs hcap hold h hso
  obtain hkeep | hdec | ⟨i, -, hraise⟩ := step_fcause s t h
  · exact hold (hkeep ▸ hso)
  · cases hdec.symm.trans hso
  · exact not_execRaises_stackOverflow s i hs hcap (hso ▸ hraise)

end Sys2Proof.Machine
end

section
/-! PROOFS. Everything an executed instruction writes when it completes, and what a step that executes none leaves alone:
the configuration, the memory and `PC` of every step (20_memory.md R57, 40_sequencer.md R99, 10_state.md R20 to R25). -/

namespace Sys2Proof.Machine

/-! ### What completes -/

/-- The executed instruction `i` completes from `s`: `u` is `s` with everything `i` writes but what the commit writes, and
`n` is the next `PC`. One constructor per completion of 41_pointer_and_cell.md to 44_extension.md. -/
inductive Completes (s : State) : Instr → State → Nat → Prop where
  | incp (h : s.ptr ≠ s.params.memSize - 1) : Completes s .incp { s with ptr := s.ptr + 1 } (s.pc + 1)
  | decp (h : s.ptr ≠ 0) : Completes s .decp { s with ptr := s.ptr - 1 } (s.pc + 1)
  | inc (hp : s.ptr < s.params.memSize) : Completes s .inc
      { s with mem := Memory.write s.mem s.ptr (wrap8 (((s.readByte s.ptr).toNat : Int) + 1)) } (s.pc + 1)
  | dec (hp : s.ptr < s.params.memSize) : Completes s .dec
      { s with mem := Memory.write s.mem s.ptr (wrap8 (((s.readByte s.ptr).toNat : Int) - 1)) } (s.pc + 1)
  | putchar (hp : s.ptr < s.params.memSize) : Completes s .putchar
      { s with port := (callOut (s.readByte s.ptr) s).port } (s.pc + 1)
  | getchar (hp : s.ptr < s.params.memSize) : Completes s .getchar
      { s with port := (callIn s).2.port, mem := Memory.write s.mem s.ptr (wrap8 (callIn s).1) } (s.pc + 1)
  | skip (hid : s.bktid ≠ bktMax s) (hz : s.readByte s.ptr = 0#8) : Completes s .loopstart
      { s with bktid := s.bktid + 1, bktctr := s.bktid + 1 } (s.pc + 1)
  | enter (hid : s.bktid ≠ bktMax s) (hz : s.readByte s.ptr ≠ 0#8) (hroom : s.params.stackDepth ≠ some s.lrs.length) :
      Completes s .loopstart { s with bktid := s.bktid + 1, lrs := s.pc :: s.lrs } (s.pc + 1)
  | exit (a : Nat) (rest : List Nat) (hl : s.lrs = a :: rest) (hz : s.readByte s.ptr = 0#8) : Completes s .loopend
      { s with bktid := bktPred s, lrs := rest } (s.pc + 1)
  | back (a : Nat) (rest : List Nat) (hl : s.lrs = a :: rest) (hz : s.readByte s.ptr ≠ 0#8) : Completes s .loopend
      { s with bktid := bktPred s, lrs := rest } a
  | comment : Completes s .comment { s with comt := true } (s.pc + 1)
  | newline : Completes s .newline { s with comt := false } (s.pc + 1)
  | noop (i : Instr) (hi : i = .wsTab ∨ i = .wsCr ∨ i = .wsSp ∨ i = .push ∨ i = .syscall) : Completes s i s (s.pc + 1)
  | pop (hp : s.ptr < s.params.memSize) : Completes s .pop { s with ss := s.readByte s.ptr } (s.pc + 1)
  | jump (hp : s.ptr < s.params.memSize) (hle : jumpTarget s (s.readByte s.ptr) ≤ s.pcend) :
      Completes s .jump s (jumpTarget s (s.readByte s.ptr))

/-- The Output callback writes nothing but the port. -/
theorem callOut_eq_port (v : Byte) (s : State) : callOut v s = { s with port := (callOut v s).port } := by
  rw [callOut_eq]

/-- An executed instruction that does not fault is one of the completions, committed. -/
theorem exec_completes (i : Instr) (s t : State) (h : exec i s = .next t) (hrun : t.mode = .running) :
    ∃ u n, Completes s i u n ∧ t = commit u n := by
  cases i with
  | incp =>
    obtain ⟨-, rfl⟩ | ⟨hp, rfl⟩ := execIncp_next s t h
    · cases hrun
    · exact ⟨_, _, .incp hp, rfl⟩
  | decp =>
    obtain ⟨-, rfl⟩ | ⟨hp, rfl⟩ := execDecp_next s t h
    · cases hrun
    · exact ⟨_, _, .decp hp, rfl⟩
  | inc => obtain ⟨hp, rfl⟩ := execInc_next s t h; exact ⟨_, _, .inc hp, rfl⟩
  | dec => obtain ⟨hp, rfl⟩ := execDec_next s t h; exact ⟨_, _, .dec hp, rfl⟩
  | putchar =>
    obtain ⟨hp, rfl⟩ := execPutchar_next s t h
    exact ⟨_, _, .putchar hp, by rw [callOut_eq]; rfl⟩
  | getchar => obtain ⟨hp, rfl⟩ := execGetchar_next s t h; exact ⟨_, _, .getchar hp, rfl⟩
  | loopstart =>
    obtain ⟨-, rfl⟩ | ⟨hid, -, ⟨hz, rfl⟩ | ⟨-, -, rfl⟩ | ⟨hz, hroom, rfl⟩⟩ := execLoopstart_next s t h
    · cases hrun
    · exact ⟨_, _, .skip hid hz, rfl⟩
    · cases hrun
    · exact ⟨_, _, .enter hid hz hroom, rfl⟩
  | loopend =>
    obtain ⟨-, rfl⟩ | ⟨a, rest, hl, -, rfl⟩ := execLoopend_next s t h
    · cases hrun
    · split
      · exact ⟨_, _, .exit a rest hl ‹_›, rfl⟩
      · exact ⟨_, _, .back a rest hl ‹_›, rfl⟩
  | comment => cases h; exact ⟨_, _, .comment, rfl⟩
  | newline => cases h; exact ⟨_, _, .newline, rfl⟩
  | wsTab | wsCr | wsSp | push | syscall => cases h; exact ⟨_, _, .noop _ (by simp), rfl⟩
  | pop => obtain ⟨hp, rfl⟩ := execPop_next s t h; exact ⟨_, _, .pop hp, rfl⟩
  | jump =>
    obtain ⟨hp, ⟨-, rfl⟩ | ⟨hle, rfl⟩⟩ := execJump_next s t h
    · cases hrun
    · exact ⟨_, _, .jump hp hle, rfl⟩

/-- Everything an executed instruction can have done: the fault entry of one of its causes, or a completion. -/
theorem exec_next (i : Instr) (s t : State) (h : exec i s = .next t) :
    (∃ c, ExecRaises s i c ∧ t = raise c s.pc (encode i) s) ∨ ∃ u n, Completes s i u n ∧ t = commit u n := by
  obtain ⟨hrun, -, -⟩ | hraise := exec_completes_or_raises i s t h
  · exact .inr (exec_completes i s t h hrun)
  · exact .inl hraise

/-! ### What a completion leaves alone -/

section
variable {s u : State} {i : Instr} {n : Nat}

theorem Completes.sameFixed (h : Completes s i u n) : SameFixed s u := by
  cases h <;> exact ⟨rfl, rfl, rfl, rfl⟩

theorem Completes.mode_eq (h : Completes s i u n) : u.mode = s.mode := by
  cases h <;> rfl

/-- Memory is written by `+`, `-` and `,` only, and at `PTR` (R57). -/
theorem Completes.mem_eq_or_write (h : Completes s i u n) :
    u.mem = s.mem ∨ ((i = .inc ∨ i = .dec ∨ i = .getchar) ∧ ∃ v, u.mem = Memory.write s.mem s.ptr v) := by
  cases h with
  | inc => exact .inr ⟨.inl rfl, _, rfl⟩
  | dec => exact .inr ⟨.inr (.inl rfl), _, rfl⟩
  | getchar => exact .inr ⟨.inr (.inr rfl), _, rfl⟩
  | incp | decp | putchar | skip | enter | exit | back | comment | newline | noop | pop | jump => exact .inl rfl

/-- Only a taken `]` and `@` assign `pc` (R99). -/
theorem Completes.next_pc (h : Completes s i u n) :
    n = s.pc + 1 ∨ (i = .loopend ∧ s.readByte s.ptr ≠ 0#8 ∧ s.lrs.head? = some n) ∨
      (i = .jump ∧ n ≤ s.pcend ∧ n = jumpTarget s (s.readByte s.ptr)) := by
  cases h with
  | back a rest hl hz => exact .inr (.inl ⟨rfl, hz, by rw [hl]; rfl⟩)
  | jump _ hle => exact .inr (.inr ⟨rfl, hle, rfl⟩)
  | incp | decp | inc | dec | putchar | getchar | skip | enter | exit | comment | newline | noop | pop => exact .inl rfl

end

/-! ### What a step leaves alone -/

/-- A step that executes no instruction writes no configuration and no memory, and moves `PC` to the next byte where it
continues and nowhere else. -/
theorem step_frame_or_executes (s t : State) (h : step s = .next t) :
    (SameFixed s t ∧ t.mem = s.mem ∧
      ((t.port.result ≠ .cont ∧ t.pc = s.pc) ∨ (t.port.result = .cont ∧ t.pc = s.pc + 1))) ∨
    ∃ i, Executes s i ∧ exec i s = .next t := by
  obtain ⟨-, rfl⟩ | ⟨-, rfl⟩ | ⟨-, -, -, rfl⟩ | ⟨-, -, -, -, -, -, rfl⟩ |
    ⟨-, b, -, ⟨-, -, rfl⟩ | ⟨-, -, rfl⟩ | ⟨i, -, -, -, rfl⟩ | ⟨i, hi, -, -, hex⟩⟩ := step_next s t h
  · exact .inl ⟨⟨rfl, rfl, rfl, rfl⟩, rfl, .inl ⟨nofun, rfl⟩⟩
  · exact .inl ⟨⟨rfl, rfl, rfl, rfl⟩, rfl, .inl ⟨nofun, rfl⟩⟩
  · exact .inl ⟨⟨rfl, rfl, rfl, rfl⟩, rfl, .inl ⟨nofun, rfl⟩⟩
  · exact .inl ⟨⟨rfl, rfl, rfl, rfl⟩, rfl, .inl ⟨nofun, rfl⟩⟩
  · split <;> exact .inl ⟨⟨rfl, rfl, rfl, rfl⟩, rfl, .inr ⟨rfl, rfl⟩⟩
  · exact .inl ⟨⟨rfl, rfl, rfl, rfl⟩, rfl, .inl ⟨nofun, rfl⟩⟩
  · split <;> exact .inl ⟨⟨rfl, rfl, rfl, rfl⟩, rfl, .inr ⟨rfl, rfl⟩⟩
  · exact .inr ⟨i, hi, hex⟩

/-- Settles O40: neither fault entry, nor a completion, nor any phase before them writes the configuration. -/
theorem stepsWriteNoConfiguration : Obligations.StepsWriteNoConfiguration := by
  intro s t h
  obtain ⟨hfix, -, -⟩ | ⟨i, -, hex⟩ := step_frame_or_executes s t h
  · exact hfix
  · obtain ⟨c, -, rfl⟩ | ⟨u, n, hc, rfl⟩ := exec_next i s t hex
    · exact ⟨rfl, rfl, rfl, rfl⟩
    · exact hc.sameFixed

/-- A step keeps the memory, or it executes one of the three instructions that store a byte at `PTR`. -/
theorem step_mem (s t : State) (h : step s = .next t) :
    t.mem = s.mem ∨
    ((Executes s .inc ∨ Executes s .dec ∨ Executes s .getchar) ∧ ∃ v, t.mem = Memory.write s.mem s.ptr v) := by
  obtain ⟨-, hmem, -⟩ | ⟨i, hi, hex⟩ := step_frame_or_executes s t h
  · exact .inl hmem
  · obtain ⟨c, -, rfl⟩ | ⟨u, n, hc, rfl⟩ := exec_next i s t hex
    · exact .inl rfl
    · obtain hmem | ⟨rfl | rfl | rfl, hv⟩ := hc.mem_eq_or_write
      · exact .inl hmem
      · exact .inr ⟨.inl hi, hv⟩
      · exact .inr ⟨.inr (.inl hi), hv⟩
      · exact .inr ⟨.inr (.inr hi), hv⟩

/-- Settles O33: a step keeps the memory or writes one byte into it. -/
theorem everyStepKeepsMemoryCanonical : Obligations.EveryStepKeepsMemoryCanonical := by
  intro s t hwf h
  obtain hmem | ⟨-, v, hmem⟩ := step_mem s t h
  · rw [hmem]; exact hwf
  · rw [hmem]; exact Memory.wf_write s.mem s.ptr v hwf

/-- Settles O41: the one write of a step is at `PTR`, and the other cells read as before. -/
theorem memoryChangesOnlyAtPointer : Obligations.MemoryChangesOnlyAtPointer := by
  intro s t h
  obtain hmem | ⟨hi, v, hmem⟩ := step_mem s t h
  · have hsame : SameMem s t := fun a => congrArg (Memory.read · a) hmem
    exact ⟨fun a _ => hsame a, .inl hsame⟩
  · refine ⟨fun a ha => ?_, .inr hi⟩
    rw [State.readByte, hmem]
    exact Memory.read_write_other s.mem s.ptr a v ha

/-- Settles O42: a fault leaves `PC`, and a completion commits the next `PC` of its instruction. -/
theorem stepsMovePc : Obligations.StepsMovePc := by
  intro s t h
  obtain ⟨-, -, ⟨hr, hpc⟩ | ⟨hr, hpc⟩⟩ | ⟨i, hi, hex⟩ := step_frame_or_executes s t h
  · exact ⟨fun _ => hpc, fun hcont => absurd hcont hr⟩
  · exact ⟨fun hne => absurd hr hne, fun _ => .inl hpc⟩
  · obtain ⟨c, -, rfl⟩ | ⟨u, n, hc, rfl⟩ := exec_next i s t hex
    · exact ⟨fun _ => rfl, nofun⟩
    · refine ⟨fun hne => absurd rfl hne, fun _ => ?_⟩
      obtain hn | ⟨rfl, hz, htop⟩ | ⟨rfl, hle, hn⟩ := hc.next_pc
      · exact .inl hn
      · exact .inr (.inl ⟨hi, hz, htop⟩)
      · exact .inr (.inr ⟨hi, hle, by simpa [jumpTarget, Bool.toNat, cond_eq_ite] using hn⟩)

end Sys2Proof.Machine
end

section
/-! PROOFS. What the phases of a step, and the two bracket instructions, answer where they are reached (40_sequencer.md R91
to R98, 43_loops.md R131, R132): the directions that `step_next` and the inversions of the instructions leave open. -/

namespace Sys2Proof.Machine

/-! ### The answer of each phase -/

theorem step_of_uninitialized (s : State) (hm : s.mode = .uninitialized) : step s = .next (withResult s .refused) := by
  simp [step, stepWith, beforeFetch, modeGate, hm]

theorem step_of_faulted (s : State) (hm : s.mode = .faulted) :
    step s = .next (withResult s (.fault s.fcause s.fpc s.fval)) := by
  simp [step, stepWith, beforeFetch, modeGate, hm]

theorem step_of_atEnd (s : State) (hu : s.mode ≠ .uninitialized) (hf : s.mode ≠ .faulted) (hpc : s.pc = s.pcend) :
    step s = .next (withResult { s with mode := .halted } .halt) := by
  simp [step, stepWith, beforeFetch, modeGate_of s hu hf, haltTest, hpc]

theorem stepByte_of_comment (b : Byte) (s : State) (hext : s.params.ext = true) (hc : s.comt = true) :
    stepByte exec b s = .next (advance (if b = 0x0A#8 then { s with comt := false } else s)) := by
  simp [stepByte, commentFilter, inComment, hext, hc]

theorem stepByte_of_invalid (b : Byte) (s : State) (hc : ¬(s.params.ext = true ∧ s.comt = true))
    (hd : decode s.params.ext b = .invalid) : stepByte exec b s = .next (raise .invalidInstruction s.pc b s) := by
  simp [stepByte, commentFilter_of s b hc, hd]

theorem stepByte_of_skip (b : Byte) (s : State) (i : Instr) (hc : ¬(s.params.ext = true ∧ s.comt = true))
    (hd : decode s.params.ext b = .instr i) (hk : 0 < s.bktctr) :
    stepByte exec b s = .next (advance (if i = .loopend then { s with bktctr := s.bktctr - 1 } else s)) := by
  simp [stepByte, commentFilter_of s b hc, hd, skipFilter, inSkip, hk]

theorem step_of_executes (s : State) (i : Instr) (hx : Executes s i) : step s = exec i s := by
  obtain ⟨hf, hc, hk, b, hb, hd⟩ := hx
  rw [step_of_fetches s b hf hb]
  simp [stepByte, commentFilter_of s b hc, hd, skipFilter, inSkip, hk]

/-! ### The answers of `[` and `]` -/

theorem execLoopstart_of_zero (s : State) (hid : s.bktid ≠ bktMax s) (hp : s.ptr < s.params.memSize)
    (hz : s.readByte s.ptr = 0#8) :
    execLoopstart s = .next (advance { s with bktid := s.bktid + 1, bktctr := s.bktid + 1 }) := by
  simp [execLoopstart, hid, withCell_of_lt s _ hp, cellIsZero_iff, hz]

theorem execLoopstart_of_full (s : State) (hid : s.bktid ≠ bktMax s) (hp : s.ptr < s.params.memSize)
    (hz : s.readByte s.ptr ≠ 0#8) (hfull : s.params.stackDepth = some s.lrs.length) :
    execLoopstart s = .next (raise .stackOverflow s.pc 0x5B s) := by
  simp [execLoopstart, hid, withCell_of_lt s _ hp, cellIsZero_iff, hz, lrsFull_iff, hfull]

theorem execLoopstart_of_room (s : State) (hid : s.bktid ≠ bktMax s) (hp : s.ptr < s.params.memSize)
    (hz : s.readByte s.ptr ≠ 0#8) (hroom : s.params.stackDepth ≠ some s.lrs.length) :
    execLoopstart s = .next (advance { s with bktid := s.bktid + 1, lrs := s.pc :: s.lrs }) := by
  simp [execLoopstart, hid, withCell_of_lt s _ hp, cellIsZero_iff, hz, lrsFull_iff, hroom, lrsPush]

theorem execLoopend_of_nil (s : State) (hl : s.lrs = []) :
    execLoopend s = .next (raise .loopStackUnderflow s.pc 0x5D s) := by
  simp [execLoopend, lrsPop, hl]

theorem execLoopend_of_cons (s : State) (a : Nat) (rest : List Nat) (hl : s.lrs = a :: rest)
    (hp : s.ptr < s.params.memSize) :
    execLoopend s = .next (commit { s with bktid := bktPred s, lrs := rest }
      (if s.readByte s.ptr = 0#8 then s.pc + 1 else a)) := by
  simp only [execLoopend, lrsPop, hl, withCell_of_lt s _ hp, cellIsZero_iff]
  split
  · rfl
  · rfl

end Sys2Proof.Machine
end

section
/-! PROOFS. The invariant of the machine (10_state.md R38, 43_loops.md R139): one rule per write, then the instructions,
the steps and the commands; and that no state that meets it is stuck (20_memory.md R52, R54). -/

namespace Sys2Proof.Machine

/-! ### One rule per write -/

section
variable {s : State}

/-- No clause reads the port. -/
theorem State.Inv.setPort (h : s.Inv) (p : Port) : State.Inv { s with port := p } := { h with }

/-- No clause reads `SS`. -/
theorem State.Inv.setSs (h : s.Inv) (v : Byte) : State.Inv { s with ss := v } := { h with }

theorem State.Inv.setPtr (h : s.Inv) (a : Nat) (ha : a < s.params.memSize) : State.Inv { s with ptr := a } :=
  { h with ptr_lt := ha }

theorem State.Inv.setComt (h : s.Inv) (c : Bool) (hext : s.params.ext = false → c = false)
    (hboth : ¬(c = true ∧ 0 < s.bktctr)) : State.Inv { s with comt := c } :=
  { h with ext_comt := hext, not_both := hboth }

/-- A write to the current cell, which lies inside the memory. -/
theorem State.Inv.writeCell (h : s.Inv) (v : Byte) : State.Inv { s with mem := Memory.write s.mem s.ptr v } :=
  { h with
    mem_wf := Memory.wf_write s.mem s.ptr v h.mem_wf
    mem_lt := fun c hc => (Memory.mem_write s.mem s.ptr v c hc).elim (fun heq => heq ▸ h.ptr_lt) (h.mem_lt c) }

theorem State.Inv.setBktctr (h : s.Inv) (k : Nat) (hle : k ≤ s.bktid) (hboth : ¬(s.comt = true ∧ 0 < k)) :
    State.Inv { s with bktctr := k } :=
  { h with bktctr_le := hle, not_both := hboth }

/-- A write to `BKTID` outside skip mode. -/
theorem State.Inv.setBktid (h : s.Inv) (k : Nat) (hk : s.bktctr = 0) (hdepth : s.lrs.length ≤ k)
    (hlt : k < 2 ^ s.params.bktW) : State.Inv { s with bktid := k } :=
  { h with bktid_lt := hlt, depth_le := hdepth, bktctr_le := hk.trans_le (Nat.zero_le k) }

theorem State.Inv.push (h : s.Inv) (a : Nat) (ha : s.params.prog[a]? = some 0x5B#8) (hdepth : s.lrs.length < s.bktid)
    (hroom : s.params.stackDepth ≠ some s.lrs.length) : State.Inv { s with lrs := a :: s.lrs } :=
  { h with
    depth_le := hdepth
    lrs_entry := List.forall_mem_cons.2 ⟨ha, h.lrs_entry⟩
    depth_cap := fun d hd => lt_of_le_of_ne (h.depth_cap d hd) fun heq => hroom (heq ▸ hd) }

theorem State.Inv.pop (h : s.Inv) (a : Nat) (rest : List Nat) (hl : s.lrs = a :: rest) :
    State.Inv { s with lrs := rest } := by
  have hlen : rest.length ≤ s.lrs.length := by simp [hl]
  exact { h with
    depth_le := hlen.trans h.depth_le
    lrs_entry := fun b hb => h.lrs_entry b (by simp [hl, hb])
    depth_cap := fun d hd => hlen.trans (h.depth_cap d hd) }

/-- An executed `]`: outside skip mode the top entry and one count of `BKTID` go together. -/
theorem State.Inv.closeLoop (h : s.Inv) (a : Nat) (rest : List Nat) (hl : s.lrs = a :: rest) (hk : s.bktctr = 0) :
    State.Inv { s with bktid := bktPred s, lrs := rest } := by
  have hdepth : rest.length + 1 ≤ s.bktid := by simpa [hl] using h.depth_le
  have hwidth : s.bktid < 2 ^ s.params.bktW := h.bktid_lt
  rw [bktPred_of_pos s (by omega) hwidth]
  exact (h.pop a rest hl).setBktid (s.bktid - 1) hk (Nat.le_sub_one_of_lt hdepth) ((Nat.sub_le _ _).trans_lt hwidth)

theorem State.Inv.fcause_eq_none (h : s.Inv) (hm : s.mode ≠ .faulted) : s.fcause = .none :=
  not_not.1 fun hc => hm (h.cause_iff.1 hc)

/-- A change of `MODE` outside `Faulted`, where the record is clear. -/
theorem State.Inv.setMode (h : s.Inv) (m : Mode) (hm : s.mode ≠ .faulted) (hu : m ≠ .uninitialized)
    (hf : m ≠ .faulted) (hhalt : m = .halted → s.pc = s.pcend) : State.Inv { s with mode := m } :=
  { h with
    mode_ne := hu
    halted_pc := hhalt
    cause_iff := iff_of_false (not_not.2 (h.fcause_eq_none hm)) hf
    record := fun hfm => absurd hfm hf
    record_clear := fun _ => h.record_clear hm }

theorem State.Inv.setPc (h : s.Inv) (n : Nat) (hrun : s.mode = .running) (hn : n ≤ s.pcend) :
    State.Inv { s with pc := n } :=
  { h with
    pc_le := hn
    halted_pc := fun hm => by cases hrun.symm.trans hm
    record := fun hm => by cases hrun.symm.trans hm }

theorem State.Inv.commit (h : s.Inv) (n : Nat) (hm : s.mode ≠ .faulted) (hn : n ≤ s.pcend) : (commit s n).Inv :=
  ((h.setMode .running hm nofun nofun nofun).setPc n rfl hn).setPort _

/-- Fault entry records the byte at `PC` (R205). -/
theorem State.Inv.raise (h : s.Inv) (c : Cause) (b : Byte) (hnone : c ≠ .none) (hinit : c ≠ .initializationFault)
    (hb : s.params.prog[s.pc]? = some b) : (raise c s.pc b s).Inv :=
  { h with
    mode_ne := nofun
    halted_pc := nofun
    cause_iff := iff_of_true hnone rfl
    cause_ne := hinit
    record := fun _ => ⟨rfl, hb⟩
    record_clear := fun hm => absurd rfl hm }

/-- `PROG` holds a byte at every address below `PCEND`. -/
theorem State.Inv.prog_of_lt (h : s.Inv) (hlt : s.pc < s.pcend) : ∃ b, s.params.prog[s.pc]? = some b :=
  ⟨_, List.getElem?_eq_getElem (hlt.trans_eq h.pcend_eq)⟩

/-- Every `LRS` entry is an address of `PROG`. -/
theorem State.Inv.entry_le (h : s.Inv) (a : Nat) (ha : a ∈ s.lrs) : a ≤ s.pcend := by
  obtain ⟨hlt, -⟩ := List.getElem?_eq_some_iff.1 (h.lrs_entry a ha)
  exact h.pcend_eq ▸ hlt.le

end

/-! ### The instructions -/

section
variable {s u t : State} {i : Instr} {n : Nat}

theorem Executes.pc_lt (h : Executes s i) : s.pc < s.pcend :=
  have ⟨⟨_, _, hlt, _⟩, _⟩ := h
  hlt

theorem Executes.mode_ne_faulted (h : Executes s i) : s.mode ≠ .faulted :=
  have ⟨⟨_, hm, _⟩, _⟩ := h
  hm

theorem Executes.bktctr_eq_zero (h : Executes s i) : s.bktctr = 0 :=
  have ⟨_, _, hk, _⟩ := h
  hk

/-- What is executed is an instruction of the active set, and its byte stands at `PC`. -/
theorem Executes.byte_and_wf (h : Executes s i) :
    s.params.prog[s.pc]? = some (encode i) ∧ i.wf s.params.ext = true := by
  obtain ⟨-, -, -, b, hb, hd⟩ := h
  obtain ⟨rfl, hwf⟩ := decode_instr _ _ _ hd
  exact ⟨hb, hwf⟩

/-- Nothing is executed in comment mode. -/
theorem Executes.comt_eq_false (h : Executes s i) (hs : s.Inv) : s.comt = false := by
  obtain ⟨-, hc, -⟩ := h
  cases hext : s.params.ext with
  | false => exact hs.ext_comt hext
  | true => simpa [hext] using hc

/-- What an executed instruction writes before the commit keeps the invariant, and its next `PC` lies in the program. -/
theorem Completes.keeps_inv (h : Completes s i u n) (hx : Executes s i) (hs : s.Inv) : u.Inv ∧ n ≤ s.pcend := by
  have hnext : s.pc + 1 ≤ s.pcend := hx.pc_lt
  obtain ⟨hbyte, hwf⟩ := hx.byte_and_wf
  have hcomt : s.comt = false := hx.comt_eq_false hs
  have hskip : s.bktctr = 0 := hx.bktctr_eq_zero
  have hptr := hs.ptr_lt
  have hdepth := hs.depth_le
  have hwidth := hs.bktid_lt
  cases h with
  | incp h => exact ⟨hs.setPtr _ (by omega), hnext⟩
  | decp => exact ⟨hs.setPtr _ (by omega), hnext⟩
  | inc | dec => exact ⟨hs.writeCell _, hnext⟩
  | putchar => exact ⟨hs.setPort _, hnext⟩
  | getchar => exact ⟨(hs.writeCell (wrap8 (callIn s).1)).setPort (callIn s).2.port, hnext⟩
  | skip hid =>
    have hroom : s.bktid ≠ 2 ^ s.params.bktW - 1 := hid
    exact ⟨(hs.setBktid (s.bktid + 1) hskip (by omega) (by omega)).setBktctr _ le_rfl (by simp [hcomt]), hnext⟩
  | enter hid _ hcap =>
    have hroom : s.bktid ≠ 2 ^ s.params.bktW - 1 := hid
    exact ⟨(hs.setBktid (s.bktid + 1) hskip (by omega) (by omega)).push s.pc hbyte (Nat.lt_succ_of_le hdepth) hcap,
      hnext⟩
  | exit a rest hl => exact ⟨hs.closeLoop a rest hl hskip, hnext⟩
  | back _ rest hl => exact ⟨hs.closeLoop n rest hl hskip, hs.entry_le n (by simp [hl])⟩
  | comment => exact ⟨hs.setComt true (fun hext => by simp [hext, Instr.wf, Instr.isCore] at hwf) (by omega), hnext⟩
  | newline => exact ⟨hs.setComt false (fun _ => rfl) nofun, hnext⟩
  | noop => exact ⟨hs, hnext⟩
  | pop => exact ⟨hs.setSs _, hnext⟩
  | jump _ hle => exact ⟨hs, hle⟩

/-- A cause that an instruction raises is one of R194 to R198. -/
theorem ExecRaises.cause_ne {c : Cause} (h : ExecRaises s i c) : c ≠ .none ∧ c ≠ .initializationFault := by
  cases h <;> exact ⟨nofun, nofun⟩

/-- An executed instruction keeps the invariant. -/
theorem exec_keeps_inv (hs : s.Inv) (hx : Executes s i) (h : exec i s = .next t) : t.Inv := by
  obtain ⟨c, hc, rfl⟩ | ⟨u, n, hc, rfl⟩ := exec_next i s t h
  · obtain ⟨hnone, hinit⟩ := hc.cause_ne
    exact hs.raise c _ hnone hinit hx.byte_and_wf.1
  · obtain ⟨hu, hn⟩ := hc.keeps_inv hx hs
    obtain ⟨-, hpcend, -, -⟩ := hc.sameFixed
    exact hu.commit n (hc.mode_eq ▸ hx.mode_ne_faulted) (hpcend ▸ hn)

end

/-! ### Steps -/

/-- Settles O32: every phase that ends a step keeps the invariant. -/
theorem everyStepKeepsInvariant : Obligations.EveryStepKeepsInvariant := by
  intro s t hs h
  obtain ⟨-, rfl⟩ | ⟨-, rfl⟩ | ⟨-, hm, hpc, rfl⟩ | ⟨-, hm, -, -, -, -, rfl⟩ |
    ⟨⟨-, hm, hlt, -⟩, b, hb, ⟨-, -, rfl⟩ | ⟨-, -, rfl⟩ | ⟨i, -, -, -, rfl⟩ | ⟨i, hx, -, -, hex⟩⟩ :=
      step_next s t h
  · exact hs.setPort _
  · exact hs.setPort _
  · exact (hs.setMode .halted hm nofun nofun fun _ => hpc).setPort _
  · exact (hs.setMode .breakpointHit hm nofun nofun nofun).setPort _
  · split
    · exact (hs.setComt false (fun _ => rfl) nofun).commit _ hm hlt
    · exact hs.commit _ hm hlt
  · exact hs.raise .invalidInstruction b nofun nofun hb
  · split
    · have hctr := hs.bktctr_le
      have hboth := hs.not_both
      exact (hs.setBktctr (s.bktctr - 1) (by omega) (fun ⟨hc, hk⟩ => hboth ⟨hc, by omega⟩)).commit _ hm hlt
    · exact hs.commit _ hm hlt
  · exact exec_keeps_inv hs hx hex

/-! ### Commands -/

/-- Settles O35: `INIT` writes every register of the invariant but `BKPT`. -/
theorem initEstablishesInvariant : Obligations.InitEstablishesInvariant := by
  intro s hwf hbkpt
  exact {
    params_wf := hwf
    pc_le := Nat.zero_le _
    pcend_eq := rfl
    ptr_lt := hwf.memSize_pos
    mem_wf := rfl
    mem_lt := nofun
    not_both := nofun
    depth_le := le_rfl
    lrs_entry := nofun
    mode_ne := nofun
    ext_comt := fun _ => rfl
    bkpt_lt := hbkpt
    bktid_lt := Nat.two_pow_pos _
    bktctr_le := le_rfl
    depth_cap := fun d _ => Nat.zero_le d
    halted_pc := nofun
    cause_iff := iff_of_false (fun hne => hne rfl) nofun
    cause_ne := nofun
    record := nofun
    record_clear := fun _ => ⟨rfl, rfl⟩ }

/-- The default parameters meet the constraints of 00_scope.md R5. -/
theorem defaultParams_wf : Params.Wf {} where
  memSize_pos := by decide
  progLen_le := Nat.zero_le _
  pcW_pos := by decide
  bktW_pos := by decide
  stackDepth_pos := fun d hd => by cases hd; decide

/-- Settles O34: `State.reset` is what `INIT` makes of it. -/
theorem invariantHoldsAtReset : Obligations.InvariantHoldsAtReset :=
  initEstablishesInvariant State.reset defaultParams_wf (Nat.two_pow_pos _)

/-- A `RUN` keeps the invariant, by induction on the steps it may take. -/
theorem runFuel_keeps_inv (fuel : Nat) (s t : State) (hs : s.Inv) (h : runFuel fuel s = some (.next t)) : t.Inv := by
  induction fuel generalizing s with
  | zero => cases h
  | succ fuel ih =>
    unfold runFuel at h
    split at h
    next u hu =>
      have hu : u.Inv := everyStepKeepsInvariant s u hs hu
      split at h
      · exact ih u hu h
      · cases h; exact hu
    · cases h
    · cases h

/-- Settles O36, command by command. -/
theorem commandsKeepInvariant : Obligations.CommandsKeepInvariant := by
  intro fuel c s t hs h
  cases c with
  | init => cases h; exact initEstablishesInvariant s hs.params_wf hs.bkpt_lt
  | step => exact everyStepKeepsInvariant s t hs (Option.some.inj h)
  | run => exact runFuel_keeps_inv fuel s t hs h
  | setBkpt a =>
    simp only [issue] at h
    split at h
    · cases h; exact { hs with bkpt_lt := ‹_› }
    · cases h
  | clrBkpt => cases h; exact { hs with }

/-! ### No step is stuck -/

theorem Answers.next (t : State) : Answers (.next t) := ⟨t, rfl⟩

theorem withCell_answers (s : State) (k : Byte → Out) (hp : s.ptr < s.params.memSize) (hk : ∀ v, Answers (k v)) :
    Answers (withCell s k) := by
  rw [withCell_of_lt s k hp]
  exact hk _

theorem storeCell_answers (s : State) (v : Byte) (hp : s.ptr < s.params.memSize) : Answers (storeCell s v) := by
  rw [storeCell_of_lt s v hp]
  exact .next _

theorem ite_answers (c : Prop) [Decidable c] {o o' : Out} (h : Answers o) (h' : Answers o') :
    Answers (if c then o else o') := by
  split
  · exact h
  · exact h'

/-- Every instruction has an answer where the current cell lies inside the memory. -/
theorem exec_answers (i : Instr) (s : State) (hp : s.ptr < s.params.memSize) : Answers (exec i s) := by
  cases i with
  | incp | decp => exact ite_answers _ (.next _) (.next _)
  | inc | dec => exact withCell_answers s _ hp fun v => storeCell_answers s _ hp
  | putchar => exact withCell_answers s _ hp fun v => .next _
  | getchar => exact storeCell_answers _ _ (by simpa using hp)
  | loopstart =>
    exact ite_answers _ (.next _) (withCell_answers s _ hp fun v =>
      ite_answers _ (.next _) (ite_answers _ (.next _) (.next _)))
  | loopend =>
    cases hl : s.lrs with
    | nil => exact ⟨_, execLoopend_of_nil s hl⟩
    | cons a rest => exact ⟨_, execLoopend_of_cons s a rest hl hp⟩
  | pop => exact withCell_answers s _ hp fun v => .next _
  | jump => exact withCell_answers s _ hp fun v => ite_answers _ (.next _) (.next _)
  | comment | newline | wsTab | wsCr | wsSp | push | syscall => exact .next _

/-- Phases 5 to 9 have an answer where the current cell lies inside the memory. -/
theorem stepByte_answers (b : Byte) (s : State) (hp : s.ptr < s.params.memSize) : Answers (stepByte exec b s) := by
  unfold stepByte
  split
  · exact .next _
  · split
    · exact .next _
    · split
      · exact .next _
      · exact exec_answers _ s hp

/-- A step that reaches the fetch is not at the end of the program. -/
theorem pc_ne_of_beforeFetch (s : State) (h : beforeFetch s = none) : s.pc ≠ s.pcend := by
  intro hpc
  unfold beforeFetch haltTest at h
  rw [if_pos hpc] at h
  split at h <;> cases h

/-- Settles O37: below `PCEND = PROG_LEN` the fetch has a byte, and the current cell lies inside the memory. -/
theorem noStepIsStuck : Obligations.NoStepIsStuck := by
  intro s hs
  unfold step stepWith
  cases hbf : beforeFetch s with
  | some t => exact .next t
  | none =>
    have hlt : s.pc < s.pcend := lt_of_le_of_ne hs.pc_le (pc_ne_of_beforeFetch s hbf)
    obtain ⟨b, hb⟩ := hs.prog_of_lt hlt
    have hfetch : fetch s = some b := (if_pos hlt).trans hb
    simp only [hfetch]
    exact stepByte_answers b s hs.ptr_lt

end Sys2Proof.Machine
end

section
/-! PROOFS. Nothing reads `SS`, nor `BKPT` while `BKPT_EN = 0` (10_state.md R29, 44_extension.md R157,
93_implementation_defined.md I9). -/

namespace Sys2Proof.Machine

/-! ### Other values of `SS` and `BKPT` -/

/-- `s` with other values of the two registers. -/
def State.withSsBkpt (x : Byte) (y : Nat) (s : State) : State := { s with ss := x, bkpt := y }

/-- `t'` is the state `t` that a step from `s` answers, but for `SS` and `BKPT`: `BKPT` is `y`, `SS` is `x` or loaded as in
`t`, and the two read as `x` and `y` in what the host sees during the callbacks of the step. -/
def AgreesButSsBkpt (x : Byte) (y : Nat) (s t t' : State) : Prop :=
  ∃ x' new, t.port.events = s.port.events ++ new ∧
    t' = { t with
      ss := x', bkpt := y
      port := { t.port with
        events := s.port.events ++ new.map (Event.mapSeen fun v => { v with ss := x, bkpt := y }) } } ∧
    (x' = x ∨ x' = t.ss)

section
variable {x : Byte} {y : Nat} {s t : State}

/-- A step without a callback. -/
theorem AgreesButSsBkpt.of_same_events {x' : Byte} (hev : t.port.events = s.port.events) (hx' : x' = x ∨ x' = t.ss) :
    AgreesButSsBkpt x y s t (t.withSsBkpt x' y) :=
  ⟨x', [], by simpa using hev, by simp [State.withSsBkpt, ← hev], hx'⟩

/-- A step without a callback that does not load `SS`. -/
theorem AgreesButSsBkpt.quiet (hev : t.port.events = s.port.events) : AgreesButSsBkpt x y s t (t.withSsBkpt x y) :=
  .of_same_events hev (.inl rfl)

theorem Fetches.withSsBkpt (h : Fetches s) (hen : s.bkptEn = false) : Fetches (s.withSsBkpt x y) := by
  obtain ⟨hu, hf, hlt, -⟩ := h
  exact ⟨hu, hf, hlt, by simp [State.withSsBkpt, hen]⟩

theorem Executes.withSsBkpt {i : Instr} (h : Executes s i) (hen : s.bkptEn = false) : Executes (s.withSsBkpt x y) i := by
  obtain ⟨hf, hdec⟩ := h
  exact ⟨hf.withSsBkpt hen, hdec⟩

/-- An executed instruction does not read the two registers. -/
theorem exec_withSsBkpt (i : Instr) (h : exec i s = .next t) :
    ∃ t', exec i (s.withSsBkpt x y) = .next t' ∧ AgreesButSsBkpt x y s t t' := by
  cases i with
  | incp =>
    obtain ⟨hp, rfl⟩ | ⟨hp, rfl⟩ := execIncp_next s t h
    · exact ⟨_, if_pos hp, .quiet rfl⟩
    · exact ⟨_, if_neg hp, .quiet rfl⟩
  | decp =>
    obtain ⟨hp, rfl⟩ | ⟨hp, rfl⟩ := execDecp_next s t h
    · exact ⟨_, if_pos hp, .quiet rfl⟩
    · exact ⟨_, if_neg hp, .quiet rfl⟩
  | inc =>
    obtain ⟨hp, rfl⟩ := execInc_next s t h
    exact ⟨_, (withCell_of_lt (s.withSsBkpt x y) _ hp).trans (storeCell_of_lt _ _ hp), .quiet rfl⟩
  | dec =>
    obtain ⟨hp, rfl⟩ := execDec_next s t h
    exact ⟨_, (withCell_of_lt (s.withSsBkpt x y) _ hp).trans (storeCell_of_lt _ _ hp), .quiet rfl⟩
  | putchar =>
    obtain ⟨hp, rfl⟩ := execPutchar_next s t h
    refine ⟨_, withCell_of_lt (s.withSsBkpt x y) _ hp, ?_⟩
    cases hout : s.params.outPresent with
    | true =>
      simp only [callOut, State.withSsBkpt, hout, if_true]
      exact ⟨x, [.out (s.readByte s.ptr) s.view], rfl, rfl, .inl rfl⟩
    | false =>
      simp only [callOut, State.withSsBkpt, hout]
      exact .quiet rfl
  | getchar =>
    obtain ⟨hp, rfl⟩ := execGetchar_next s t h
    refine ⟨_, storeCell_of_lt (callIn (s.withSsBkpt x y)).2 _ (by simpa [State.withSsBkpt] using hp), ?_⟩
    cases hin : s.params.inPresent with
    | true =>
      rw [callIn_of_present s hin, callIn_of_present (s.withSsBkpt x y) hin]
      exact ⟨x, [.input (nextAnswer s) s.view], rfl, rfl, .inl rfl⟩
    | false =>
      rw [callIn_of_absent s hin, callIn_of_absent (s.withSsBkpt x y) hin]
      exact .quiet rfl
  | loopstart =>
    obtain ⟨hid, rfl⟩ | ⟨hid, hp, ⟨hz, rfl⟩ | ⟨hz, hfull, rfl⟩ | ⟨hz, hroom, rfl⟩⟩ := execLoopstart_next s t h
    · exact ⟨_, if_pos hid, .quiet rfl⟩
    · exact ⟨_, execLoopstart_of_zero (s.withSsBkpt x y) hid hp hz, .quiet rfl⟩
    · exact ⟨_, execLoopstart_of_full (s.withSsBkpt x y) hid hp hz hfull, .quiet rfl⟩
    · exact ⟨_, execLoopstart_of_room (s.withSsBkpt x y) hid hp hz hroom, .quiet rfl⟩
  | loopend =>
    obtain ⟨hl, rfl⟩ | ⟨a, rest, hl, hp, rfl⟩ := execLoopend_next s t h
    · exact ⟨_, execLoopend_of_nil (s.withSsBkpt x y) hl, .quiet rfl⟩
    · exact ⟨_, execLoopend_of_cons (s.withSsBkpt x y) a rest hl hp, .quiet rfl⟩
  | comment | newline | wsTab | wsCr | wsSp | push | syscall => cases h; exact ⟨_, rfl, .quiet rfl⟩
  | pop =>
    obtain ⟨hp, rfl⟩ := execPop_next s t h
    exact ⟨_, withCell_of_lt (s.withSsBkpt x y) _ hp, .of_same_events rfl (.inr rfl)⟩
  | jump =>
    obtain ⟨hp, ⟨hj, rfl⟩ | ⟨hj, rfl⟩⟩ := execJump_next s t h
    · exact ⟨_, (withCell_of_lt (s.withSsBkpt x y) _ hp).trans (if_pos hj), .quiet rfl⟩
    · exact ⟨_, (withCell_of_lt (s.withSsBkpt x y) _ hp).trans (if_neg (Nat.not_lt.2 hj)), .quiet rfl⟩

end

/-- Settles O45: with `BKPT_EN = 0` the breakpoint test cannot fire, and no other phase names the two registers. -/
theorem ssAndDisabledBkptAreNotRead : Obligations.SsAndDisabledBkptAreNotRead := by
  intro s t x y hen h
  suffices hagree : ∃ t', step (s.withSsBkpt x y) = .next t' ∧ AgreesButSsBkpt x y s t t' by
    obtain ⟨_, ht', x', new, hev, rfl, hx'⟩ := hagree
    exact ⟨x', new, hev, ht', hx'⟩
  obtain ⟨hm, rfl⟩ | ⟨hm, rfl⟩ | ⟨hu, hf, hpc, rfl⟩ | ⟨-, -, -, hen', -⟩ | ⟨hf, b, hb, hcases⟩ := step_next s t h
  · exact ⟨_, step_of_uninitialized _ hm, .quiet rfl⟩
  · exact ⟨_, step_of_faulted _ hm, .quiet rfl⟩
  · exact ⟨_, step_of_atEnd _ hu hf hpc, .quiet rfl⟩
  · cases hen.symm.trans hen'
  · have hstep : step (s.withSsBkpt x y) = stepByte exec b (s.withSsBkpt x y) :=
      step_of_fetches _ b (hf.withSsBkpt hen) hb
    obtain ⟨hext, hc, rfl⟩ | ⟨hc, hd, rfl⟩ | ⟨i, hc, hd, hk, rfl⟩ | ⟨i, hx, -, -, hex⟩ := hcases
    · exact ⟨_, hstep.trans (stepByte_of_comment b _ hext hc), by split <;> exact .quiet rfl⟩
    · exact ⟨_, hstep.trans (stepByte_of_invalid b _ hc hd), .quiet rfl⟩
    · exact ⟨_, hstep.trans (stepByte_of_skip b _ i hc hd hk), by split <;> exact .quiet rfl⟩
    · rw [step_of_executes _ i (hx.withSsBkpt hen)]
      exact exec_withSsBkpt i hex

end Sys2Proof.Machine
end

section
/-! PROOFS. The numeric codes of `MODE` and `FCAUSE` as the host's debug read gives them (10_state.md R21,
60_exceptions.md R191, 45_host_interface.md R180). -/

namespace Sys2Proof.Machine

theorem debugRead_mode (s : State) : debugRead .mode s = some s.mode.code.toNat := rfl

theorem debugRead_fcause (s : State) : debugRead .fcause s = some s.fcause.code.toNat := rfl

/-- Settles O3, mode by mode and cause by cause. -/
theorem modeAndCauseCodes : Obligations.ModeAndCauseCodes := by
  refine ⟨fun s => ?_, fun s => ?_⟩
  · rw [debugRead_mode]
    cases s.mode <;> rfl
  · rw [debugRead_fcause]
    cases s.fcause <;> rfl

end Sys2Proof.Machine
end

section
/-! PROOFS. Where the model stops: the fetch past `PCEND` (20_memory.md R52) and the current cell outside the memory
(20_memory.md R53, R54, 93_implementation_defined.md I4). -/

namespace Sys2Proof.Machine

/-- Past the end of the program the fetch has no byte, so a step that no earlier phase ends stops there. -/
theorem step_of_pcend_lt (s : State) (hu : s.mode ≠ .uninitialized) (hf : s.mode ≠ .faulted) (hpc : s.pcend < s.pc)
    (hbrk : ¬(s.bkptEn = true ∧ s.pc = s.bkpt ∧ s.mode ≠ .breakpointHit)) : step s = .fault .fetchOutsideProgram := by
  have hhalt : haltTest s = none := if_neg (by omega)
  have hbreak : breakpointTest s = none := if_neg hbrk
  have hfetch : fetch s = none := if_neg (by omega)
  simp [step, stepWith, beforeFetch, modeGate_of s hu hf, hhalt, hbreak, hfetch]

/-- `,` stores into the current cell, whatever the callback answers (R122). -/
theorem execGetchar_of_le (s : State) (hp : s.params.memSize ≤ s.ptr) : execGetchar s = .fault .dataOutsideMemory :=
  storeCell_of_le _ _ (by simpa using hp)

/-- `[` looks at the current cell where `BKTID` can still count (R131). -/
theorem execLoopstart_of_le (s : State) (hp : s.params.memSize ≤ s.ptr) (hid : s.bktid ≠ bktMax s) :
    execLoopstart s = .fault .dataOutsideMemory :=
  (if_neg hid).trans (withCell_of_le s _ hp)

/-- `]` looks at the current cell where there is an address to pop (R132). -/
theorem execLoopend_of_le (s : State) (hp : s.params.memSize ≤ s.ptr) (hl : s.lrs ≠ []) :
    execLoopend s = .fault .dataOutsideMemory := by
  obtain ⟨a, rest, hcons⟩ := List.exists_cons_of_ne_nil hl
  simp only [execLoopend, lrsPop, hcons]
  exact withCell_of_le s _ hp

/-- Settles O12: the fetch decides the first stop, and the read or the write of the current cell the second. -/
theorem stuckOutsideTheAddressSpaces : Obligations.StuckOutsideTheAddressSpaces := by
  refine ⟨step_of_pcend_lt, fun s i hp hi => ?_, execLoopstart_of_le, execLoopend_of_le⟩
  obtain rfl | rfl | rfl | rfl | rfl | rfl := hi
  · exact withCell_of_le s _ hp
  · exact withCell_of_le s _ hp
  · exact withCell_of_le s _ hp
  · exact execGetchar_of_le s hp
  · exact withCell_of_le s _ hp
  · exact withCell_of_le s _ hp

end Sys2Proof.Machine
end

section
/-! PROOFS. The callbacks of a step: which step makes one, what the host sees during it, and what that step writes
(20_memory.md R65, 42_io.md R121, R122). -/

namespace Sys2Proof.Machine

/-! ### The events of a step -/

/-- A completion adds no event, or it is `.` or `,` with its slot set and adds one, seen in the start state. -/
theorem Completes.events {s u : State} {i : Instr} {n : Nat} (h : Completes s i u n) :
    u.port.events = s.port.events ∨
    (i = .putchar ∧ s.params.outPresent = true ∧
      u.port.events = s.port.events ++ [.out (s.readByte s.ptr) s.view]) ∨
    (i = .getchar ∧ s.params.inPresent = true ∧
      u.port.events = s.port.events ++ [.input (nextAnswer s) s.view]) := by
  cases h with
  | putchar =>
    cases hout : s.params.outPresent with
    | true => exact .inr (.inl ⟨rfl, rfl, by simp [callOut_eq, hout]⟩)
    | false => exact .inl (by simp [callOut_eq, hout])
  | getchar =>
    cases hin : s.params.inPresent with
    | true => exact .inr (.inr ⟨rfl, rfl, by rw [callIn_of_present s hin]⟩)
    | false => exact .inl (by rw [callIn_of_absent s hin])
  | incp | decp | inc | dec | skip | enter | exit | back | comment | newline | noop | pop | jump => exact .inl rfl

/-- A step adds no event, or it executes `.` or `,` with its slot set and adds one, seen in the start state. -/
theorem step_events (s t : State) (h : step s = .next t) :
    t.port.events = s.port.events ∨
    (Executes s .putchar ∧ s.params.outPresent = true ∧
      t.port.events = s.port.events ++ [.out (s.readByte s.ptr) s.view]) ∨
    (Executes s .getchar ∧ s.params.inPresent = true ∧
      t.port.events = s.port.events ++ [.input (nextAnswer s) s.view]) := by
  obtain ⟨-, rfl⟩ | ⟨-, rfl⟩ | ⟨-, -, -, rfl⟩ | ⟨-, -, -, -, -, -, rfl⟩ |
    ⟨-, b, -, ⟨-, -, rfl⟩ | ⟨-, -, rfl⟩ | ⟨i, -, -, -, rfl⟩ | ⟨i, hi, -, -, hex⟩⟩ := step_next s t h
  · exact .inl rfl
  · exact .inl rfl
  · exact .inl rfl
  · exact .inl rfl
  · split <;> exact .inl rfl
  · exact .inl rfl
  · split <;> exact .inl rfl
  · obtain ⟨c, -, rfl⟩ | ⟨u, n, hc, rfl⟩ := exec_next i s t hex
    · exact .inl rfl
    · obtain hsame | ⟨rfl, hout, hev⟩ | ⟨rfl, hin, hev⟩ := hc.events
      · exact .inl hsame
      · exact .inr (.inl ⟨hi, hout, hev⟩)
      · exact .inr (.inr ⟨hi, hin, hev⟩)

/-- The callback of a new event is made by `.` or `,`, and shows the state at the start of the step. -/
theorem seen_of_new_event (s t : State) (e : Event) (h : step s = .next t)
    (hev : t.port.events = s.port.events ++ [e]) :
    e.seen = s.view ∧ (Executes s .putchar ∨ Executes s .getchar) := by
  obtain hsame | ⟨hx, -, hnew⟩ | ⟨hx, -, hnew⟩ := step_events s t h
  · exact absurd (hsame.symm.trans hev) (by simp)
  · obtain rfl : Event.out _ _ = e := by simpa using hnew.symm.trans hev
    exact ⟨rfl, .inl hx⟩
  · obtain rfl : Event.input _ _ = e := by simpa using hnew.symm.trans hev
    exact ⟨rfl, .inr hx⟩

/-! ### What `.` and `,` write -/

/-- `.` writes `PC`, `MODE` and the port only (R121). -/
theorem execPutchar_frame (s t : State) (h : execPutchar s = .next t) :
    t = { s with pc := s.pc + 1, mode := .running, port := t.port } := by
  obtain ⟨-, rfl⟩ := execPutchar_next s t h
  rw [callOut_eq]
  rfl

/-- `,` writes `PC`, `MODE`, the port and the memory only (R122). -/
theorem execGetchar_frame (s t : State) (h : execGetchar s = .next t) :
    t = { s with mem := t.mem, pc := s.pc + 1, mode := .running, port := t.port } := by
  obtain ⟨-, rfl⟩ := execGetchar_next s t h
  rfl

/-- Settles O58: the host sees the start state, and the frames of `.` and `,` leave the callback nothing to write. -/
theorem callbackReadsStartOfStep : Obligations.CallbackReadsStartOfStep := by
  intro s t e h hev
  obtain ⟨hseen, hx⟩ := seen_of_new_event s t e h hev
  have hout : Executes s .putchar → t = { s with pc := s.pc + 1, mode := .running, port := t.port } :=
    fun hx => execPutchar_frame s t ((step_of_executes s _ hx).symm.trans h)
  have hmem : Executes s .putchar → t.mem = s.mem := fun hx => by rw [hout hx]
  refine ⟨fun q => congrArg (View.read · q) hseen, hx, fun hx a => congrArg (Memory.read · a) (hmem hx),
    (memoryChangesOnlyAtPointer s t h).1, ?_⟩
  obtain hx | hx := hx
  · rw [hmem hx]
    exact hout hx
  · exact execGetchar_frame s t ((step_of_executes s _ hx).symm.trans h)

end Sys2Proof.Machine
end

section
/-! PROOFS. The decoder and the encoder (30_encoding.md R72 to R75): the round trip of all instructions, the bytes that are
`INVALID` and their number, and what `EXT = 0` keeps out of a step (44_extension.md R150). -/

namespace Sys2Proof

/-! ### The round trip -/

/-- `RoundTrip` of every instruction: an instruction of the active set is read back, and one outside it is `INVALID`. -/
theorem decode_encode (ext : Bool) (i : Instr) :
    decode ext (encode i) = if i.wf ext = true then .instr i else .invalid :=
  match i with
  | .incp => Laws.RoundTrip.incp ext
  | .decp => Laws.RoundTrip.decp ext
  | .inc => Laws.RoundTrip.inc ext
  | .dec => Laws.RoundTrip.dec ext
  | .putchar => Laws.RoundTrip.putchar ext
  | .getchar => Laws.RoundTrip.getchar ext
  | .loopstart => Laws.RoundTrip.loopstart ext
  | .loopend => Laws.RoundTrip.loopend ext
  | .comment => Laws.RoundTrip.comment ext
  | .newline => Laws.RoundTrip.newline ext
  | .wsTab => Laws.RoundTrip.wsTab ext
  | .wsCr => Laws.RoundTrip.wsCr ext
  | .wsSp => Laws.RoundTrip.wsSp ext
  | .push => Laws.RoundTrip.push ext
  | .pop => Laws.RoundTrip.pop ext
  | .jump => Laws.RoundTrip.jump ext
  | .syscall => Laws.RoundTrip.syscall ext

theorem decode_encode_of_wf {ext : Bool} {i : Instr} (h : i.wf ext = true) : decode ext (encode i) = .instr i := by
  rw [decode_encode, if_pos h]

theorem decode_encode_of_not_wf {ext : Bool} {i : Instr} (h : i.wf ext ≠ true) : decode ext (encode i) = .invalid := by
  rw [decode_encode, if_neg h]

/-- Under `EXT = 0` the active set is the core set (R72). -/
@[simp] theorem Instr.wf_false (i : Instr) : i.wf false = i.isCore := Bool.or_false _

/-- Settles O1: each word is the byte of its row, and the decoder finds the row. -/
theorem opcodeWordsDecode : Obligations.OpcodeWordsDecode := by
  unfold Obligations.OpcodeWordsDecode
  decide

/-! ### The invalid bytes -/

/-- A byte is `INVALID` where no active row has it (R74). -/
theorem decode_eq_invalid_iff (ext : Bool) (b : Byte) :
    decode ext b = .invalid ↔ ∀ r ∈ activeRows ext, r.byte ≠ b := by
  unfold decode
  split
  · next r hr =>
    have hmem := List.mem_of_find?_eq_some hr
    have hb : r.byte = b := by simpa using List.find?_some hr
    exact iff_of_false nofun fun hne => hne r hmem hb
  · next hnone => exact iff_of_true rfl (by simpa using hnone)

/-- The active rows have different bytes: those of `EXT = 0` are among those of `EXT = 1`. -/
theorem activeRows_nodup (ext : Bool) : ((activeRows ext).map fun r => r.byte.toNat).Nodup := by
  have hsub : (activeRows ext).Sublist (activeRows true) := by
    cases ext with
    | false => exact List.sublist_append_left coreRows extensionRows
    | true => exact List.Sublist.refl _
  exact List.pairwise_map.2
    ((activeRows_pairwise.sublist hsub).imp fun hne heq => hne (BitVec.eq_of_toNat_eq heq))

/-- The byte values that decode to an instruction are the bytes of the active rows, each listed once. -/
theorem validBytes_perm_activeRows (ext : Bool) :
    ((List.range 256).filter fun n => !(decode ext (BitVec.ofNat 8 n) == .invalid)).Perm
      ((activeRows ext).map fun r => r.byte.toNat) := by
  refine (List.perm_ext_iff_of_nodup (List.nodup_range.filter _) (activeRows_nodup ext)).2 fun n => ?_
  have hvalid : decode ext (BitVec.ofNat 8 n) ≠ .invalid ↔ ∃ r ∈ activeRows ext, r.byte = BitVec.ofNat 8 n := by
    simp [decode_eq_invalid_iff]
  simp only [List.mem_filter, List.mem_range, Bool.not_eq_true', beq_eq_false_iff_ne, hvalid, List.mem_map]
  constructor
  · rintro ⟨hn, r, hr, hb⟩
    exact ⟨r, hr, by rw [hb, BitVec.toNat_ofNat, Nat.mod_eq_of_lt hn]⟩
  · rintro ⟨r, hr, rfl⟩
    exact ⟨r.byte.isLt, r, hr, by simp⟩

/-- The invalid byte values and the active rows are 256 together. -/
theorem countP_invalid_add_activeRows (ext : Bool) :
    (List.range 256).countP (fun n => decode ext (BitVec.ofNat 8 n) == .invalid) + (activeRows ext).length = 256 := by
  have hvalid := (validBytes_perm_activeRows ext).length_eq
  have hall := List.length_eq_countP_add_countP (l := List.range 256)
    (fun n => decode ext (BitVec.ofNat 8 n) == .invalid)
  simp only [List.length_range, List.length_map, ← List.countP_eq_length_filter, Bool.decide_eq_false,
    Bool.not_eq_true] at hvalid hall
  omega

/-- Settles O2: the round trip and its converse, and 8 or 17 active rows among the 256 byte values. -/
theorem decodeAndEncodeAgree : Obligations.DecodeAndEncodeAgree := by
  refine ⟨fun _ _ => decode_encode_of_wf, decode_instr, fun i => ?_, ?_, ?_⟩
  · by_cases hwf : i.wf false = true
    · exact .inl hwf
    · exact .inr (decode_encode_of_not_wf hwf)
  · exact Nat.add_right_cancel (countP_invalid_add_activeRows false)
  · exact Nat.add_right_cancel (countP_invalid_add_activeRows true)

end Sys2Proof

namespace Sys2Proof.Machine

/-! ### The gate `EXT` -/

section
variable {s t u : State} {i : Instr} {n : Nat}

/-- With `EXT = 0` only the core set is executed (R150). -/
theorem Executes.isCore (h : Executes s i) (hext : s.params.ext = false) : i.isCore = true := by
  obtain ⟨-, hwf⟩ := h.byte_and_wf
  rwa [hext, Instr.wf_false] at hwf

/-- `COMT` is written by `#` and LF, `SS` by `)`, and by no instruction of the core set. -/
theorem Completes.comt_ss_of_isCore (h : Completes s i u n) (hi : i.isCore = true) : u.comt = s.comt ∧ u.ss = s.ss := by
  cases h with
  | comment | newline | pop => cases hi
  | incp | decp | inc | dec | putchar | getchar | skip | enter | exit | back | noop | jump => exact ⟨rfl, rfl⟩

/-- With `EXT = 0` a step writes neither `COMT` nor `SS` (R75): there is no comment mode, and what executes is core. -/
theorem step_comt_ss_of_ext_off (hext : s.params.ext = false) (h : step s = .next t) :
    t.comt = s.comt ∧ t.ss = s.ss := by
  obtain ⟨-, rfl⟩ | ⟨-, rfl⟩ | ⟨-, -, -, rfl⟩ | ⟨-, -, -, -, -, -, rfl⟩ |
    ⟨-, b, -, ⟨hon, -, -⟩ | ⟨-, -, rfl⟩ | ⟨i, -, -, -, rfl⟩ | ⟨i, hx, -, -, hex⟩⟩ := step_next s t h
  · exact ⟨rfl, rfl⟩
  · exact ⟨rfl, rfl⟩
  · exact ⟨rfl, rfl⟩
  · exact ⟨rfl, rfl⟩
  · simp [hext] at hon
  · exact ⟨rfl, rfl⟩
  · split <;> exact ⟨rfl, rfl⟩
  · obtain ⟨c, -, rfl⟩ | ⟨u, n, hc, rfl⟩ := exec_next i s t hex
    · exact ⟨rfl, rfl⟩
    · exact hc.comt_ss_of_isCore (hx.isCore hext)

/-- With `EXT = 0` a fetched extension byte is a decode fault (R150, R193). -/
theorem step_of_extension_byte (hext : s.params.ext = false) (hi : i.isCore = false) (hf : Fetches s)
    (hb : s.params.prog[s.pc]? = some (encode i)) :
    step s = .next (raise .invalidInstruction s.pc (encode i) s) := by
  have hwf : i.wf s.params.ext ≠ true := by simp [hext, hi]
  rw [step_of_fetches s _ hf hb]
  exact stepByte_of_invalid _ s (by simp [hext]) (decode_encode_of_not_wf hwf)

end

/-- Settles O44: the gate keeps the three instructions that write `COMT` or `SS` out of the decoder. -/
theorem extensionOffKeepsCommentAndSs : Obligations.ExtensionOffKeepsCommentAndSs := by
  intro s t hext h
  obtain ⟨hcomt, hss⟩ := step_comt_ss_of_ext_off hext h
  refine ⟨hcomt, hss, fun i hi hf hb => ?_⟩
  exact Host.Outcome.next.inj (h.symm.trans (step_of_extension_byte hext hi hf hb))

end Sys2Proof.Machine
end

section
/-! PROOFS. The sequencer: what each result of a step leaves behind, and where `Halt` and `Break` come from
(40_sequencer.md R90 to R103). -/

namespace Sys2Proof.Machine

/-! ### The gate and the three tests -/

/-- Settles O4: it is the model's lemma on the phases that an executed instruction passes. -/
theorem stepRunsDecodedInstruction : Obligations.StepRunsDecodedInstruction := step_of_executes

/-- Settles O5: behind the gate, test by test. -/
theorem modeGateRefusesOrRepeats : Obligations.ModeGateRefusesOrRepeats := by
  refine fun s => ⟨step_of_uninitialized s, step_of_faulted s, fun hu hf => ?_⟩
  have hgate : modeGate s = none := modeGate_of s hu hf
  cases hhalt : haltTest s with
  | some t => simp [step, stepWith, beforeFetch, hgate, hhalt]
  | none =>
    cases hbreak : breakpointTest s with
    | some t => simp [step, stepWith, beforeFetch, hgate, hhalt, hbreak]
    | none => cases hfetch : fetch s <;> simp [step, stepWith, beforeFetch, hgate, hhalt, hbreak, hfetch]

/-- The breakpoint test ends the step before the fetch (R93). -/
theorem step_of_breakpoint (s : State) (hu : s.mode ≠ .uninitialized) (hf : s.mode ≠ .faulted)
    (hb : s.mode ≠ .breakpointHit) (hpc : s.pc ≠ s.pcend) (hen : s.bkptEn = true) (hat : s.pc = s.bkpt) :
    step s = .next (withResult { s with mode := .breakpointHit } (.brk s.pc)) := by
  have hhalt : haltTest s = none := if_neg hpc
  have hbreak : breakpointTest s = some (withResult { s with mode := .breakpointHit } (.brk s.pc)) :=
    if_pos ⟨hen, hat, hb⟩
  simp [step, stepWith, beforeFetch, modeGate_of s hu hf, hhalt, hbreak]

/-- In `BreakpointHit` the test is skipped, and a step below `PCEND` fetches. -/
theorem fetches_of_breakpointHit (s : State) (hm : s.mode = .breakpointHit) (hlt : s.pc < s.pcend) : Fetches s := by
  simp [Fetches, hm, hlt]

/-! ### What each result leaves behind -/

/-- The table of R103: `t` is what a step from `s` leaves behind, one constructor per result, a fault being new or
repeated. -/
inductive Leaves (s : State) : State → Prop where
  | refused (hm : s.mode = .uninitialized) : Leaves s (withResult s .refused)
  | faultAgain (hm : s.mode = .faulted) : Leaves s (withResult s (.fault s.fcause s.fpc s.fval))
  | halt (hu : s.mode ≠ .uninitialized) (hf : s.mode ≠ .faulted) (hpc : s.pc = s.pcend) :
      Leaves s (withResult { s with mode := .halted } .halt)
  | brk (hpc : s.pc ≠ s.pcend) (hen : s.bkptEn = true) (hat : s.pc = s.bkpt) (hm : s.mode ≠ .breakpointHit) :
      Leaves s (withResult { s with mode := .breakpointHit } (.brk s.pc))
  | fault (c : Cause) (b : Byte) (hm : s.mode ≠ .faulted) : Leaves s (raise c s.pc b s)
  | cont (t : State) (hm : t.mode = .running) (hr : t.port.result = .cont) (hfix : SameFixed s t)
      (hrec : SameRecord s t) : Leaves s t

/-- Every step ends by a row of that table. -/
theorem step_leaves (s t : State) (h : step s = .next t) : Leaves s t := by
  have hfix : SameFixed s t := stepsWriteNoConfiguration s t h
  obtain ⟨hm, rfl⟩ | ⟨hm, rfl⟩ | ⟨hu, hf, hpc, rfl⟩ | ⟨-, -, hpc, hen, hat, hm, rfl⟩ |
    ⟨⟨-, hf, -⟩, b, -, ⟨-, -, rfl⟩ | ⟨-, -, rfl⟩ | ⟨i, -, -, -, rfl⟩ | ⟨i, -, -, -, hex⟩⟩ := step_next s t h
  · exact .refused hm
  · exact .faultAgain hm
  · exact .halt hu hf hpc
  · exact .brk hpc hen hat hm
  · exact .cont _ rfl rfl hfix (by split <;> exact ⟨rfl, rfl, rfl⟩)
  · exact .fault _ b hf
  · exact .cont _ rfl rfl hfix (by split <;> exact ⟨rfl, rfl, rfl⟩)
  · obtain ⟨hrun, hcont, hrec⟩ | ⟨c, -, rfl⟩ := exec_completes_or_raises i s t hex
    · exact .cont t hrun hcont hfix hrec
    · exact .fault c _ hf

/-- Settles O13: the table, read by result. -/
theorem whatEachResultLeavesBehind : Obligations.WhatEachResultLeavesBehind := by
  intro s t h
  cases step_leaves s t h with
  | refused hm => exact ⟨hm, rfl⟩
  | faultAgain hm => exact .inl ⟨hm, rfl⟩
  | halt => rfl
  | brk => rfl
  | fault c b hm => exact .inr ⟨hm, rfl, rfl⟩
  | cont _ hrun hr hfix hrec => rw [hr]; exact ⟨hrun, hfix, hrec⟩

/-- Settles O6: the halt test, and the one row of the table that returns `Halt`. -/
theorem haltExactlyAtProgramEnd : Obligations.HaltExactlyAtProgramEnd := by
  refine fun s => ⟨step_of_atEnd s, fun t h hr => ?_⟩
  cases step_leaves s t h with
  | halt hu hf hpc => exact ⟨hu, hf, hpc⟩
  | cont _ _ hcont => cases hcont.symm.trans hr
  | refused | faultAgain | brk | fault => cases hr

/-- Settles O7: the test fires or is skipped by `MODE`, and one row of the table writes `BreakpointHit` and returns
`Break`. -/
theorem breakpointTestBeforeFetch : Obligations.BreakpointTestBeforeFetch := by
  refine fun s => ⟨step_of_breakpoint s, fun b hm hlt hb => ?_, fun t hm h => ?_, fun t p h hr => ?_⟩
  · exact step_of_fetches s b (fetches_of_breakpointHit s hm hlt) hb
  · cases step_leaves s t h with
    | refused hm' | faultAgain hm' => cases hm.symm.trans hm'
    | brk _ _ _ hm' => exact absurd hm hm'
    | halt | fault => exact nofun
    | cont _ hrun => rw [hrun]; exact nofun
  · cases step_leaves s t h with
    | brk hpc hen hat => exact ⟨hpc, hen, hat⟩
    | cont _ _ hcont => cases hcont.symm.trans hr
    | refused | faultAgain | halt | fault => cases hr

/-! ### The filters -/

/-- Settles O9: the filter stands before the decoder, and a byte other than LF keeps `COMT` at 1. -/
theorem commentFilterPassesByte : Obligations.CommentFilterPassesByte := by
  intro s b hf hb hext hc
  rw [step_of_fetches s b hf hb, stepByte_of_comment b s hext hc]
  split
  · rfl
  · rw [← hc]; rfl

/-- Settles O10: the decode phase stands before the skip filter. -/
theorem invalidByteFaults : Obligations.InvalidByteFaults := by
  intro s b hf hb hc hd
  exact (step_of_fetches s b hf hb).trans (stepByte_of_invalid b s hc hd)

/-- Settles O11: the filter decides the step once the byte has decoded. -/
theorem skipFilterCountsLoopEnds : Obligations.SkipFilterCountsLoopEnds := by
  intro s b i hf hb hc hd hk
  rw [step_of_fetches s b hf hb, stepByte_of_skip b s i hc hd hk]
  split <;> rfl

/-! ### `>` and `<` -/

/-- `>` and `<` write `PTR` and advance, or raise `PointerRange`. -/
theorem exec_pointerMove (i : Instr) (s t : State) (hi : i = .incp ∨ i = .decp) (h : exec i s = .next t) :
    (∃ b, t = raise .pointerRange s.pc b s) ∨ ∃ p, t = advance { s with ptr := p } := by
  obtain rfl | rfl := hi
  · obtain ⟨-, ht⟩ | ⟨-, ht⟩ := execIncp_next s t h
    · exact .inl ⟨_, ht⟩
    · exact .inr ⟨_, ht⟩
  · obtain ⟨-, ht⟩ | ⟨-, ht⟩ := execDecp_next s t h
    · exact .inl ⟨_, ht⟩
    · exact .inr ⟨_, ht⟩

/-- Settles O27: neither the fault entry nor the advance writes anything else. -/
theorem frameOfPointerMoves : Obligations.FrameOfPointerMoves := by
  intro i s t hi h
  obtain ⟨b, rfl⟩ | ⟨p, rfl⟩ := exec_pointerMove i s t hi h
  · exact ⟨⟨rfl, rfl, rfl, rfl⟩, ⟨rfl, rfl, rfl⟩, fun _ => rfl, ⟨rfl, rfl, rfl⟩, rfl, rfl,
      .inr ⟨rfl, rfl, rfl, rfl⟩, nofun, fun _ => ⟨rfl, rfl⟩⟩
  · exact ⟨⟨rfl, rfl, rfl, rfl⟩, ⟨rfl, rfl, rfl⟩, fun _ => rfl, ⟨rfl, rfl, rfl⟩, rfl, rfl,
      .inl ⟨rfl, rfl, rfl, rfl, rfl⟩, fun _ => rfl, nofun⟩

end Sys2Proof.Machine
end

section
/-! PROOFS. Regions of the text that are passed byte by byte: comments and skip regions (40_sequencer.md R95, R97,
43_loops.md R133, 44_extension.md R160). -/

namespace Sys2Proof.Machine

/-! ### The text in front of a step -/

/-- The text at `PC` begins with the bytes `seg`, below `PCEND`, and neither the mode gate nor a breakpoint keeps a step
from fetching them: as many steps fetch them in turn, as long as each advances `PC` by one. -/
structure Ahead (s : State) (seg : List Byte) : Prop where
  mode_ne_uninitialized : s.mode ≠ .uninitialized
  mode_ne_faulted : s.mode ≠ .faulted
  bkptEn_eq : s.bkptEn = false
  length_le : s.pc + seg.length ≤ s.pcend
  text : seg <+: s.params.prog.drop s.pc

section
variable {s t : State} {b : Byte} {seg : List Byte}

theorem Ahead.fetches (h : Ahead s (b :: seg)) : Fetches s := by
  have hlen : s.pc + (seg.length + 1) ≤ s.pcend := h.length_le
  exact ⟨h.mode_ne_uninitialized, h.mode_ne_faulted, by omega, by simp [h.bkptEn_eq]⟩

theorem Ahead.byte (h : Ahead s (b :: seg)) : s.params.prog[s.pc]? = some b := by
  obtain ⟨rest, hrest⟩ := h.text
  have hdrop : (s.params.prog.drop s.pc)[0]? = some b := by rw [← hrest]; rfl
  simpa [List.getElem?_drop] using hdrop

theorem Ahead.step_eq (h : Ahead s (b :: seg)) : step s = stepByte exec b s :=
  step_of_fetches s b h.fetches h.byte

/-- A step that goes on to the next byte has the rest of the text in front of it. -/
theorem Ahead.advanced (h : Ahead s (b :: seg)) (hfix : SameFixed s t) (hm : t.mode = .running)
    (hpc : t.pc = s.pc + 1) : Ahead t seg := by
  obtain ⟨hparams, hpcend, -, hen⟩ := hfix
  obtain ⟨rest, hrest⟩ := h.text
  have hlen : s.pc + (seg.length + 1) ≤ s.pcend := h.length_le
  refine ⟨by simp [hm], by simp [hm], hen.trans h.bkptEn_eq, ?_, rest, ?_⟩
  · rw [hpc, hpcend]; omega
  · rw [hparams, hpc, ← List.tail_drop, ← hrest]; rfl

/-- The text as the statements on regions give it: `n + 1` bytes, so it has a first one. -/
theorem Ahead.of_take {n : Nat} (hu : s.mode ≠ .uninitialized) (hf : s.mode ≠ .faulted) (hen : s.bkptEn = false)
    (hle : s.pc + (n + 1) ≤ s.pcend) (htext : (s.params.prog.drop s.pc).take (n + 1) = seg)
    (hlen : seg.length = n + 1) : ∃ b rest, seg = b :: rest ∧ rest.length = n ∧ Ahead s (b :: rest) := by
  obtain ⟨b, rest, rfl⟩ := List.exists_cons_of_length_eq_add_one hlen
  exact ⟨b, rest, rfl, Nat.succ.inj hlen, hu, hf, hen, hlen ▸ hle, htext ▸ List.take_prefix _ _⟩

end

/-! ### Comments -/

/-- In comment mode a byte that is not LF is passed (R95). -/
theorem Ahead.step_in_comment {s : State} {b : Byte} {seg : List Byte} (h : Ahead s (b :: seg))
    (hext : s.params.ext = true) (hc : s.comt = true) (hb : b ≠ 0x0A#8) : step s = .next (advance s) := by
  rw [h.step_eq, stepByte_of_comment b s hext hc, if_neg hb]

/-- A text without LF is passed in comment mode, by induction on the text. -/
theorem run_in_comment (seg : List Byte) (b : Byte) (s : State) (h : Ahead s (b :: seg)) (hext : s.params.ext = true)
    (hc : s.comt = true) (hlf : ∀ d ∈ b :: seg, d ≠ 0x0A#8) :
    Host.Core.run core (seg.length + 1) s = .next (commit s (s.pc + (seg.length + 1))) := by
  induction seg generalizing b s with
  | nil => exact run_succ_of_next 0 s _ (h.step_in_comment hext hc (hlf b List.mem_cons_self))
  | cons c rest ih =>
    have hstep : step s = .next (advance s) := h.step_in_comment hext hc (hlf b List.mem_cons_self)
    have ht : Ahead (advance s) (c :: rest) := h.advanced ⟨rfl, rfl, rfl, rfl⟩ rfl rfl
    calc Host.Core.run core (rest.length + 1 + 1) s
        = Host.Core.run core (rest.length + 1) (advance s) := run_succ_of_next _ _ _ hstep
      _ = .next (commit s (s.pc + 1 + (rest.length + 1))) :=
          ih c (advance s) ht hext hc fun d hmem => hlf d (List.mem_cons_of_mem b hmem)
      _ = .next (commit s (s.pc + (rest.length + 1 + 1))) := by rw [Nat.add_right_comm]; rfl

/-- Settles O50: the text of the region stands ahead, and no byte of it is LF. -/
theorem commentRegionHasNoEffect : Obligations.CommentRegionHasNoEffect := by
  intro n s seg hu hf hen hext hc hle htext hlen hlf
  obtain ⟨b, rest, rfl, rfl, h⟩ := Ahead.of_take hu hf hen hle htext hlen
  exact run_in_comment rest b s h hext hc fun d hmem hd => hlf (hd ▸ hmem)

/-! ### Skip regions -/

/-- `]` is the one instruction whose byte is 0x5D. -/
theorem decode_eq_loopend_iff (ext : Bool) (b : Byte) (i : Instr) (hd : decode ext b = .instr i) :
    i = .loopend ↔ b = 0x5D#8 := by
  obtain ⟨rfl, -⟩ := decode_instr ext b i hd
  cases i <;> decide

/-- In skip mode a byte of the active set is passed, and counted if it is `]` (R97). -/
theorem Ahead.step_in_skip {s : State} {b : Byte} {seg : List Byte} (h : Ahead s (b :: seg)) (hc : s.comt = false)
    (hd : decode s.params.ext b ≠ .invalid) (hk : 0 < s.bktctr) :
    step s = .next (advance { s with bktctr := s.bktctr - [b].count 0x5D#8 }) := by
  cases hi : decode s.params.ext b with
  | invalid => exact absurd hi hd
  | instr i =>
    have hcount : [b].count 0x5D#8 = if i = .loopend then 1 else 0 := by
      simp [List.count_singleton, decode_eq_loopend_iff _ _ _ hi]
    rw [h.step_eq, stepByte_of_skip b s i (by simp [hc]) hi hk, hcount]
    split <;> rfl

/-- A text of the active set is passed in skip mode, by induction on the text, as long as the count stays positive until
its last byte. -/
theorem run_in_skip (seg : List Byte) (b : Byte) (s : State) (h : Ahead s (b :: seg)) (hc : s.comt = false)
    (hd : ∀ d ∈ b :: seg, decode s.params.ext d ≠ .invalid)
    (hk : ((b :: seg).take seg.length).count 0x5D#8 < s.bktctr) :
    Host.Core.run core (seg.length + 1) s = .next
      (commit { s with bktctr := s.bktctr - (b :: seg).count 0x5D#8 } (s.pc + (seg.length + 1))) := by
  induction seg generalizing b s with
  | nil => exact run_succ_of_next 0 s _ (h.step_in_skip hc (hd b List.mem_cons_self) hk)
  | cons c rest ih =>
    have hcount (l : List Byte) : (b :: l).count 0x5D#8 = [b].count 0x5D#8 + l.count 0x5D#8 :=
      List.count_append (l₁ := [b])
    rw [List.length_cons, List.take_succ_cons, hcount] at hk
    have hstep := h.step_in_skip hc (hd b List.mem_cons_self) (Nat.zero_lt_of_lt hk)
    have ht : Ahead (advance { s with bktctr := s.bktctr - [b].count 0x5D#8 }) (c :: rest) :=
      h.advanced ⟨rfl, rfl, rfl, rfl⟩ rfl rfl
    calc Host.Core.run core (rest.length + 1 + 1) s
        = Host.Core.run core (rest.length + 1) (advance { s with bktctr := s.bktctr - [b].count 0x5D#8 }) :=
          run_succ_of_next _ _ _ hstep
      _ = .next (commit { s with bktctr := s.bktctr - [b].count 0x5D#8 - (c :: rest).count 0x5D#8 }
            (s.pc + 1 + (rest.length + 1))) :=
          ih c _ ht hc (fun d hmem => hd d (List.mem_cons_of_mem b hmem)) (Nat.lt_sub_iff_add_lt'.2 hk)
      _ = .next (commit { s with bktctr := s.bktctr - (b :: c :: rest).count 0x5D#8 }
            (s.pc + (rest.length + 1 + 1))) := by
          rw [hcount (c :: rest), Nat.sub_sub, Nat.add_right_comm]; rfl

/-- Settles O49: the text of the region stands ahead, and is passed in skip mode. -/
theorem skipRegionCountsLoopendBytes : Obligations.SkipRegionCountsLoopendBytes := by
  intro n s seg hu hf hen hc hle htext hlen hd hk
  obtain ⟨b, rest, rfl, rfl, h⟩ := Ahead.of_take hu hf hen hle htext hlen
  exact run_in_skip rest b s h hc hd hk

end Sys2Proof.Machine
end

section
/-! PROOFS. No phase reads the events so far, so a launch after `INIT` does not depend on what ran before
(70_reset_and_hazards.md R231, R235). -/

namespace Sys2Proof.Machine

/-- Outside comment mode and skip mode the decoded instruction is executed (R98). -/
theorem stepByte_of_exec (b : Byte) (s : State) (i : Instr) (hc : ¬(s.params.ext = true ∧ s.comt = true))
    (hd : decode s.params.ext b = .instr i) (hk : ¬ 0 < s.bktctr) : stepByte exec b s = exec i s := by
  simp [stepByte, commentFilter_of s b hc, hd, skipFilter, inSkip, hk]

/-! ### Older events -/

/-- `s` with older events in front of its own. -/
def State.prependEvents (old : List Event) (s : State) : State :=
  { s with port := { s.port with events := old ++ s.port.events } }

/-- An outcome with older events in front of those of its next state. -/
def Out.prependEvents (old : List Event) : Out → Out
  | .next s => .next (s.prependEvents old)
  | .fault r => .fault r
  | .refused r => .refused r

section
variable (old : List Event)

theorem ite_prependEvents (c : Prop) [Decidable c] {o o' p p' : Out}
    (h : o = Out.prependEvents old p) (h' : o' = Out.prependEvents old p') :
    (if c then o else o') = Out.prependEvents old (if c then p else p') := by
  rw [h, h', apply_ite (Out.prependEvents old)]

theorem withCell_prependEvents (s : State) (k k' : Byte → Out) (hk : ∀ v, k' v = Out.prependEvents old (k v)) :
    withCell (s.prependEvents old) k' = Out.prependEvents old (withCell s k) := by
  by_cases hp : s.ptr < s.params.memSize
  · rw [withCell_of_lt s k hp, withCell_of_lt (s.prependEvents old) k' hp]
    exact hk _
  · rw [withCell_of_le s k (Nat.not_lt.1 hp), withCell_of_le (s.prependEvents old) k' (Nat.not_lt.1 hp)]
    rfl

theorem storeCell_prependEvents (s : State) (v : Byte) :
    storeCell (s.prependEvents old) v = Out.prependEvents old (storeCell s v) := by
  by_cases hp : s.ptr < s.params.memSize
  · rw [storeCell_of_lt s v hp, storeCell_of_lt (s.prependEvents old) v hp]
    rfl
  · rw [storeCell_of_le s v (Nat.not_lt.1 hp), storeCell_of_le (s.prependEvents old) v (Nat.not_lt.1 hp)]
    rfl

/-- The Output callback adds its event behind the older ones. -/
theorem callOut_prependEvents (v : Byte) (s : State) :
    callOut v (s.prependEvents old) = (callOut v s).prependEvents old := by
  cases hout : s.params.outPresent <;> simp [callOut, State.prependEvents, hout, State.view]

/-- The Input callback answers the same, and adds its event behind the older ones. -/
theorem callIn_prependEvents (s : State) :
    callIn (s.prependEvents old) = ((callIn s).1, (callIn s).2.prependEvents old) := by
  cases hin : s.params.inPresent <;> simp [callIn, State.prependEvents, hin, nextAnswer, State.view]

/-- An executed instruction does not read the older events. -/
theorem exec_prependEvents (i : Instr) (s : State) :
    exec i (s.prependEvents old) = Out.prependEvents old (exec i s) := by
  cases i with
  | incp | decp => exact ite_prependEvents old _ rfl rfl
  | inc | dec => exact withCell_prependEvents old s _ _ fun v => storeCell_prependEvents old s _
  | putchar =>
    refine withCell_prependEvents old s _ _ fun v => ?_
    rw [callOut_prependEvents]
    rfl
  | getchar =>
    show storeCell (callIn (s.prependEvents old)).2 (wrap8 (callIn (s.prependEvents old)).1) = _
    rw [callIn_prependEvents]
    exact storeCell_prependEvents old _ _
  | loopstart =>
    exact ite_prependEvents old _ rfl <| withCell_prependEvents old s _ _ fun v =>
      ite_prependEvents old _ rfl (ite_prependEvents old _ rfl rfl)
  | loopend =>
    cases hl : s.lrs with
    | nil => rw [exec, exec, execLoopend_of_nil s hl, execLoopend_of_nil (s.prependEvents old) hl]; rfl
    | cons a rest =>
      simp only [exec, execLoopend, lrsPop, State.prependEvents, hl]
      exact withCell_prependEvents old s _ _ fun v => ite_prependEvents old _ rfl rfl
  | pop => exact withCell_prependEvents old s _ _ fun v => rfl
  | jump => exact withCell_prependEvents old s _ _ fun v => ite_prependEvents old _ rfl rfl
  | comment | newline | wsTab | wsCr | wsSp | push | syscall => rfl

/-- No phase before the fetch reads the older events. -/
theorem beforeFetch_prependEvents (s : State) :
    beforeFetch (s.prependEvents old) = (beforeFetch s).map (State.prependEvents old) := by
  have hmode : (s.prependEvents old).mode = s.mode := rfl
  have hgate : modeGate (s.prependEvents old) = (modeGate s).map (State.prependEvents old) := by
    cases hm : s.mode <;> simp only [modeGate, hmode, hm] <;> rfl
  have hhalt : haltTest (s.prependEvents old) = (haltTest s).map (State.prependEvents old) := by
    rw [haltTest, haltTest, apply_ite (Option.map (State.prependEvents old))]
    rfl
  have hbreak : breakpointTest (s.prependEvents old) = (breakpointTest s).map (State.prependEvents old) := by
    rw [breakpointTest, breakpointTest, apply_ite (Option.map (State.prependEvents old))]
    rfl
  rw [beforeFetch, beforeFetch, hgate, hhalt, hbreak]
  cases modeGate s with
  | some t => rfl
  | none => cases haltTest s <;> rfl

/-- Neither filter, nor the decoder, nor the instruction reads the older events. -/
theorem stepByte_prependEvents (b : Byte) (s : State) :
    stepByte exec b (s.prependEvents old) = Out.prependEvents old (stepByte exec b s) := by
  by_cases hc : s.params.ext = true ∧ s.comt = true
  · rw [stepByte_of_comment b s hc.1 hc.2, stepByte_of_comment b (s.prependEvents old) hc.1 hc.2]
    split <;> rfl
  · cases hd : decode s.params.ext b with
    | invalid => rw [stepByte_of_invalid b s hc hd, stepByte_of_invalid b (s.prependEvents old) hc hd]; rfl
    | instr i =>
      by_cases hk : 0 < s.bktctr
      · rw [stepByte_of_skip b s i hc hd hk, stepByte_of_skip b (s.prependEvents old) i hc hd hk]
        split <;> rfl
      · rw [stepByte_of_exec b s i hc hd hk, stepByte_of_exec b (s.prependEvents old) i hc hd hk, exec_prependEvents]

/-- A step does not read the older events. -/
theorem step_prependEvents (s : State) : step (s.prependEvents old) = Out.prependEvents old (step s) := by
  have hfetch : fetch (s.prependEvents old) = fetch s := rfl
  rw [step, step, stepWith, stepWith, beforeFetch_prependEvents, hfetch]
  cases beforeFetch s with
  | some t => rfl
  | none =>
    cases fetch s with
    | none => rfl
    | some b => exact stepByte_prependEvents old b s

/-- Nor do any number of steps. -/
theorem run_prependEvents (n : Nat) (s : State) :
    Host.Core.run core n (s.prependEvents old) = Out.prependEvents old (Host.Core.run core n s) := by
  induction n generalizing s with
  | zero => rfl
  | succ n ih =>
    have hstep : core.step (s.prependEvents old) = Out.prependEvents old (core.step s) := step_prependEvents old s
    simp only [Host.Core.run, hstep]
    cases core.step s with
    | next t => exact ih t
    | fault r | refused r => rfl

end

/-! ### The launch after `INIT` -/

/-- `s` with no event so far. -/
def State.withoutEvents (s : State) : State := { s with port := { s.port with events := [] } }

theorem withoutEvents_prependEvents (s : State) : s.withoutEvents.prependEvents s.port.events = s := by
  simp [State.withoutEvents, State.prependEvents]

/-- But for the events, `INIT` leaves nothing of the old state except the parameters, the breakpoint and the host's
answers (R231, R233). -/
theorem init_withoutEvents_congr (s t : State) (hparams : s.params = t.params) (hbkpt : s.bkpt = t.bkpt)
    (hen : s.bkptEn = t.bkptEn) (hans : s.port.answers = t.port.answers) (hcalls : s.port.inCalls = t.port.inCalls) :
    (init s).withoutEvents = (init t).withoutEvents := by
  simp [State.withoutEvents, init, withResult, hparams, hbkpt, hen, hans, hcalls]

theorem prependEvents_eq_next (old : List Event) (o : Out) (u : State) (h : Out.prependEvents old o = .next u) :
    ∃ v, o = .next v ∧ u = v.prependEvents old := by
  cases o with
  | next v => exact ⟨v, rfl, (Host.Outcome.next.inj h).symm⟩
  | fault r | refused r => cases h

/-- Settles O53: both launches are the one launch without older events, each with its own older events in front. -/
theorem relaunchReproducesRun : Obligations.RelaunchReproducesRun := by
  intro n s t u hparams hbkpt hen hans hcalls h
  have hbase := init_withoutEvents_congr s t hparams hbkpt hen hans hcalls
  rw [← withoutEvents_prependEvents (init s), run_prependEvents] at h
  obtain ⟨v, hv, rfl⟩ := prependEvents_eq_next _ _ _ h
  refine ⟨v.port.events, rfl, ?_⟩
  rw [← withoutEvents_prependEvents (init t), run_prependEvents, ← hbase, hv]
  rfl

end Sys2Proof.Machine
end

section
/-! PROOFS. The pointer and cell instructions (41_pointer_and_cell.md): what `>`, `<`, `+` and `-` answer, the frame of the
three instructions that write the current cell, and a run of `+` and `-` (R110 to R115). -/

namespace Sys2Proof.Machine

/-! ### `>` and `<` -/

/-- Settles O14: the test of R111 decides between the fault entry and the advance. -/
theorem incpMovesRightOrFaults : Obligations.IncpMovesRightOrFaults :=
  ⟨rfl, fun _ => ⟨fun hlast => if_pos hlast, fun hroom => if_neg hroom⟩⟩

/-- Settles O15: the test of R112 decides between the fault entry and the advance. -/
theorem decpMovesLeftOrFaults : Obligations.DecpMovesLeftOrFaults :=
  ⟨rfl, fun _ => ⟨fun hfirst => if_pos hfirst, fun hroom => if_neg hroom⟩⟩

/-! ### `+` and `-` -/

/-- The state in which `+` (with `d = 1`) and `-` (with `d = -1`) complete: `d` is added to the current cell modulo 256,
and the step is committed at the next byte (R113, R114). -/
def addToCell (d : Int) (s : State) : State :=
  advance { s with mem := Memory.write s.mem s.ptr (wrap8 (((s.readByte s.ptr).toNat : Int) + d)) }

section
variable (d : Int) (s : State)

theorem execInc_of_lt (hp : s.ptr < s.params.memSize) : execInc s = .next (addToCell 1 s) :=
  (withCell_of_lt s _ hp).trans (storeCell_of_lt s _ hp)

theorem execDec_of_lt (hp : s.ptr < s.params.memSize) : execDec s = .next (addToCell (-1) s) :=
  (withCell_of_lt s _ hp).trans (storeCell_of_lt s _ hp)

@[simp] theorem addToCell_ptr : (addToCell d s).ptr = s.ptr := rfl
@[simp] theorem addToCell_pc : (addToCell d s).pc = s.pc + 1 := rfl

theorem addToCell_eq : addToCell d s = { s with
    mem := (addToCell d s).mem, pc := s.pc + 1, mode := .running, port := { s.port with result := .cont } } := rfl

theorem addToCell_wf (hwf : Memory.wf s.mem = true) : Memory.wf (addToCell d s).mem = true :=
  Memory.wf_write _ _ _ hwf

theorem readByte_addToCell_same (hwf : Memory.wf s.mem = true) :
    (((addToCell d s).readByte s.ptr).toNat : Int) = ((s.readByte s.ptr).toNat + d) % 256 := by
  have hread : (addToCell d s).readByte s.ptr = wrap8 ((s.readByte s.ptr).toNat + d) :=
    Memory.read_write_same _ _ _ hwf
  rw [hread, wrap8_toNat]

theorem readByte_addToCell_other (a : Nat) (ha : a ≠ s.ptr) : (addToCell d s).readByte a = s.readByte a :=
  Memory.read_write_other _ _ _ _ ha

end

/-- Settles O16: `+` adds 1 to the cell. -/
theorem incAddsOneModulo256 : Obligations.IncAddsOneModulo256 := by
  refine ⟨rfl, fun s hwf hp => ⟨addToCell 1 s, execInc_of_lt s hp, ?_, readByte_addToCell_other 1 s, addToCell_eq 1 s⟩⟩
  exact_mod_cast readByte_addToCell_same 1 s hwf

/-- Settles O17: `-` adds -1 to the cell. -/
theorem decSubtractsOneModulo256 : Obligations.DecSubtractsOneModulo256 :=
  ⟨rfl, fun s hwf hp => ⟨addToCell (-1) s, execDec_of_lt s hp, readByte_addToCell_same (-1) s hwf,
    readByte_addToCell_other (-1) s, addToCell_eq (-1) s⟩⟩

/-! ### The frame of `+`, `-` and `,` -/

/-- `+`, `-` and `,` store one byte at `PTR` and advance; only `,` with its slot set writes the port before that. -/
theorem exec_cellWrite (i : Instr) (s t : State) (hi : i = .inc ∨ i = .dec ∨ i = .getchar) (h : exec i s = .next t) :
    ∃ p v, t = advance { s with port := p, mem := Memory.write s.mem s.ptr v } ∧
      (i ≠ .getchar ∨ s.params.inPresent = false → p = s.port) := by
  obtain rfl | rfl | rfl := hi
  · obtain ⟨-, ht⟩ := execInc_next s t h
    exact ⟨s.port, _, ht, fun _ => rfl⟩
  · obtain ⟨-, ht⟩ := execDec_next s t h
    exact ⟨s.port, _, ht, fun _ => rfl⟩
  · obtain ⟨-, ht⟩ := execGetchar_next s t h
    refine ⟨_, _, ht, fun hquiet => ?_⟩
    have habsent : s.params.inPresent = false := hquiet.resolve_left fun hne => hne rfl
    rw [callIn_of_absent s habsent]

/-- Settles O28: the store leaves the other cells, and neither it nor the advance writes anything else. -/
theorem frameOfCellWrites : Obligations.FrameOfCellWrites := by
  intro i s t hi h
  obtain ⟨p, v, rfl, hport⟩ := exec_cellWrite i s t hi h
  refine ⟨⟨rfl, rfl, rfl, rfl⟩, ⟨rfl, rfl, rfl⟩, ⟨rfl, rfl, rfl⟩, rfl, rfl, rfl,
    fun a ha => Memory.read_write_other _ _ _ _ ha, fun hquiet => ?_⟩
  obtain rfl := hport hquiet
  exact ⟨rfl, rfl, rfl⟩

/-! ### A run of `+` and `-` -/

/-- The number of `+` in a text less the number of `-` (R115). -/
def plusLessMinus (seg : List Byte) : Int :=
  seg.count 0x2B#8 - seg.count 0x2D#8

theorem plusLessMinus_cons (b : Byte) (seg : List Byte) :
    plusLessMinus (b :: seg) = plusLessMinus [b] + plusLessMinus seg := by
  have hcount (x : Byte) : (b :: seg).count x = [b].count x + seg.count x := List.count_append (l₁ := [b])
  simp only [plusLessMinus, hcount]
  omega

/-- Outside comment and skip mode the byte of an instruction of the active set is executed (R98). -/
theorem Ahead.step_eq_exec {s : State} {i : Instr} {seg : List Byte} (h : Ahead s (encode i :: seg))
    (hi : i.wf s.params.ext = true) (hc : s.comt = false) (hk : s.bktctr = 0) : step s = exec i s := by
  rw [h.step_eq, stepByte_of_exec _ s i (by simp [hc]) (decode_encode_of_wf hi) (by simp [hk])]

/-- Such a `+` adds 1 to the current cell, and such a `-` adds -1. -/
theorem Ahead.step_plusMinus {s : State} {b : Byte} {seg : List Byte} (h : Ahead s (b :: seg)) (hc : s.comt = false)
    (hk : s.bktctr = 0) (hp : s.ptr < s.params.memSize) (hb : b = 0x2B#8 ∨ b = 0x2D#8) :
    step s = .next (addToCell (plusLessMinus [b]) s) := by
  obtain rfl | rfl := hb
  · exact (Ahead.step_eq_exec (i := .inc) h rfl hc hk).trans (execInc_of_lt s hp)
  · exact (Ahead.step_eq_exec (i := .dec) h rfl hc hk).trans (execDec_of_lt s hp)

/-- A text of `+` and `-` adds the difference of their counts, by induction on the text. -/
theorem run_plusMinus (seg : List Byte) (s : State) (h : Ahead s seg) (hc : s.comt = false) (hk : s.bktctr = 0)
    (hwf : Memory.wf s.mem = true) (hp : s.ptr < s.params.memSize) (hseg : ∀ b ∈ seg, b = 0x2B#8 ∨ b = 0x2D#8) :
    ∃ t, Host.Core.run core seg.length s = .next t ∧
      ((t.readByte s.ptr).toNat : Int) = ((s.readByte s.ptr).toNat + plusLessMinus seg) % 256 ∧
      (∀ a, a ≠ s.ptr → t.readByte a = s.readByte a) ∧ t.ptr = s.ptr ∧ t.pc = s.pc + seg.length := by
  induction seg generalizing s with
  | nil =>
    have hbyte : ((s.readByte s.ptr).toNat : Int) < 256 := Int.ofNat_lt.2 (BitVec.isLt _)
    have hsame : ((s.readByte s.ptr).toNat : Int) = ((s.readByte s.ptr).toNat + 0) % 256 := by omega
    exact ⟨s, rfl, hsame, fun _ _ => rfl, rfl, rfl⟩
  | cons b rest ih =>
    have hstep := h.step_plusMinus hc hk hp (hseg b List.mem_cons_self)
    obtain ⟨t, hrun, hcell, hother, hptr, hpc⟩ := ih (addToCell (plusLessMinus [b]) s)
      (h.advanced ⟨rfl, rfl, rfl, rfl⟩ rfl rfl) hc hk (addToCell_wf _ s hwf) hp
      fun d hd => hseg d (List.mem_cons_of_mem b hd)
    rw [addToCell_ptr] at hcell hother
    refine ⟨t, (run_succ_of_next _ _ _ hstep).trans hrun, ?_,
      fun a ha => (hother a ha).trans (readByte_addToCell_other _ s a ha), hptr, ?_⟩
    · rw [hcell, readByte_addToCell_same _ s hwf, Int.emod_add_emod, Int.add_assoc, ← plusLessMinus_cons]
    · rw [hpc, addToCell_pc, Nat.add_right_comm, Nat.add_assoc, List.length_cons]

/-- Settles O51: the text of the run stands ahead, and holds only `+` and `-`. -/
theorem plusMinusRunAddsDifference : Obligations.PlusMinusRunAddsDifference := by
  rintro n s seg hu hf hen hc hk hwf hp hle htext rfl hseg
  simp only [Int.add_sub_assoc]
  exact run_plusMinus seg s ⟨hu, hf, hen, hle, htext ▸ List.take_prefix _ _⟩ hc hk hwf hp hseg

end Sys2Proof.Machine
end

section
/-! PROOFS. The input and output instructions (42_io.md): what `.` and `,` answer for both values of their slot, and the
frame of `.` (R120, R121, R122). -/

namespace Sys2Proof.Machine

/-! ### `.` -/

theorem callOut_of_present (v : Byte) (s : State) (h : s.params.outPresent = true) :
    callOut v s = { s with port := { s.port with events := s.port.events ++ [.out v s.view] } } :=
  if_pos h

theorem callOut_of_absent (v : Byte) (s : State) (h : s.params.outPresent = false) : callOut v s = s :=
  if_neg (by simp [h])

theorem execPutchar_of_lt (s : State) (hp : s.ptr < s.params.memSize) :
    execPutchar s = .next (advance (callOut (s.readByte s.ptr) s)) :=
  withCell_of_lt s _ hp

/-- Settles O18: `.` reads the cell and calls Output with it, and the slot decides whether the call is made. -/
theorem putcharOutputsCell : Obligations.PutcharOutputsCell := by
  refine ⟨rfl, fun s hp => ⟨fun hout => ?_, fun hout => ?_⟩⟩
  · exact (execPutchar_of_lt s hp).trans (by rw [callOut_of_present _ s hout]; rfl)
  · exact (execPutchar_of_lt s hp).trans (by rw [callOut_of_absent _ s hout]; rfl)

/-- Settles O29: the Output call writes the events only, and the advance writes `PC`, `MODE` and the result. -/
theorem frameOfPutchar : Obligations.FrameOfPutchar := by
  intro s t h
  obtain ⟨-, rfl⟩ := execPutchar_next s t h
  rw [callOut_eq]
  exact ⟨⟨rfl, rfl, rfl, rfl⟩, ⟨rfl, rfl, rfl⟩, ⟨rfl, rfl, rfl⟩, fun _ => rfl, rfl, rfl, rfl, rfl, rfl⟩

/-! ### `,` -/

/-- The state in which `,` completes: the integer of the Input call, or 0 where none is made, is stored modulo 256 in the
current cell, and the step is committed at the next byte (R122). -/
def storeAnswer (s : State) : State :=
  advance { s with port := (callIn s).2.port, mem := Memory.write s.mem s.ptr (wrap8 (callIn s).1) }

section
variable (s : State)

theorem execGetchar_of_lt (hp : s.ptr < s.params.memSize) : execGetchar s = .next (storeAnswer s) := by
  rw [execGetchar, storeCell_of_lt _ _ (by simpa using hp), callIn_snd]
  rfl

theorem storeAnswer_eq : storeAnswer s = { s with
    mem := (storeAnswer s).mem, pc := s.pc + 1, mode := .running, port := (storeAnswer s).port } := rfl

theorem storeAnswer_port : (storeAnswer s).port = { (callIn s).2.port with result := .cont } := rfl

theorem readByte_storeAnswer_same (hwf : Memory.wf s.mem = true) :
    (storeAnswer s).readByte s.ptr = wrap8 (callIn s).1 :=
  Memory.read_write_same _ _ _ hwf

theorem readByte_storeAnswer_other (a : Nat) (ha : a ≠ s.ptr) : (storeAnswer s).readByte a = s.readByte a :=
  Memory.read_write_other _ _ _ _ ha

end

/-- Settles O19: with the slot set, the integer is the next answer, whose call adds the event; with it unset, it is 0 and
the port is as before. -/
theorem getcharStoresLowByte : Obligations.GetcharStoresLowByte := by
  refine ⟨rfl, fun s hwf hp hin => ?_, fun s hwf hp hin => ?_⟩
  · have hcell : ((storeAnswer s).readByte s.ptr).toNat = nextAnswer s % 256 := by
      rw [readByte_storeAnswer_same s hwf, callIn_of_present s hin, wrap8_toNat]
    have hevents : (storeAnswer s).port.events = s.port.events ++ [.input (nextAnswer s) s.view] := by
      rw [storeAnswer_port, callIn_of_present s hin]
    exact ⟨nextAnswer s, storeAnswer s, execGetchar_of_lt s hp, hcell, readByte_storeAnswer_other s, storeAnswer_eq s,
      hevents, rfl⟩
  · have hcell : (storeAnswer s).readByte s.ptr = 0#8 := by
      rw [readByte_storeAnswer_same s hwf, callIn_of_absent s hin, wrap8_zero]
    have hport : (storeAnswer s).port = { s.port with result := .cont } := by
      rw [storeAnswer_port, callIn_of_absent s hin]
    exact ⟨storeAnswer s, execGetchar_of_lt s hp, hcell, readByte_storeAnswer_other s, hport ▸ storeAnswer_eq s⟩

end Sys2Proof.Machine
end

section
/-! PROOFS. The loop instructions (43_loops.md): what `[` and `]` answer and leave alone, how `BKTID` counts, the return to
the `[` of a taken `]`, and the loop-return stack as the nesting of the text (R131 to R140). -/

namespace Sys2Proof.Machine

/-! ### What `[` and `]` answer -/

/-- Settles O21: `BKTID`, the current cell and the depth of the stack decide, in this order. -/
theorem loopstartEntersSkipsOrFaults : Obligations.LoopstartEntersSkipsOrFaults :=
  ⟨rfl, fun s => ⟨fun htop => if_pos htop, execLoopstart_of_full s, execLoopstart_of_room s, execLoopstart_of_zero s⟩⟩

/-- Settles O22: the stack decides between the fault entry and the pop, the current cell between the two next `PC`s. -/
theorem loopendBranchesExitsOrFaults : Obligations.LoopendBranchesExitsOrFaults := by
  refine ⟨rfl, fun s => ⟨execLoopend_of_nil s, fun a rest hl hp => ?_⟩⟩
  simp only [ne_eq, ite_not]
  exact execLoopend_of_cons s a rest hl hp

/-! ### The frame of `[` and `]` -/

/-- `[` and `]` raise a fault, or write bracket state only and commit; `]` leaves `BKTCTR`, and `[` assigns no `pc`. -/
theorem exec_bracket (i : Instr) (s t : State) (hi : i = .loopstart ∨ i = .loopend) (h : exec i s = .next t) :
    (∃ c, t = raise c s.pc (encode i) s) ∨
    ∃ id ctr l n, t = commit { s with bktid := id, bktctr := ctr, lrs := l } n ∧ (i = .loopend → ctr = s.bktctr) ∧
      (i = .loopstart → n = s.pc + 1) := by
  obtain ⟨c, -, rfl⟩ | ⟨u, n, hc, rfl⟩ := exec_next i s t h
  · exact .inl ⟨c, rfl⟩
  · obtain rfl | rfl := hi
    · cases hc with
      | skip | enter => exact .inr ⟨_, _, _, _, rfl, nofun, fun _ => rfl⟩
      | noop _ hno => simp at hno
    · cases hc with
      | exit | back => exact .inr ⟨_, _, _, _, rfl, fun _ => rfl, nofun⟩
      | noop _ hno => simp at hno

/-- Settles O30: neither the fault entry nor the commit writes anything else. -/
theorem frameOfLoops : Obligations.FrameOfLoops := by
  intro i s t hi h
  obtain ⟨c, rfl⟩ | ⟨id, ctr, l, n, rfl, hctr, hpc⟩ := exec_bracket i s t hi h
  · exact ⟨⟨rfl, rfl, rfl, rfl⟩, fun _ => rfl, ⟨rfl, rfl, rfl⟩, rfl, rfl, rfl, .inr ⟨rfl, rfl, rfl, rfl⟩,
      fun _ => rfl, fun _ => .inl rfl, fun _ => ⟨rfl, rfl, rfl⟩⟩
  · exact ⟨⟨rfl, rfl, rfl, rfl⟩, fun _ => rfl, ⟨rfl, rfl, rfl⟩, rfl, rfl, rfl, .inl ⟨rfl, rfl, rfl, rfl, rfl⟩,
      hctr, fun hi => .inr (hpc hi), nofun⟩

/-! ### `BKTID`, the depth of `LRS`, and skip regions -/

/-- Where `]` pops, `BKTID` counts at least the popped entry, so its decrement does not wrap. -/
theorem bktPred_add_one (s : State) (a : Nat) (rest : List Nat) (hl : s.lrs = a :: rest)
    (hdepth : s.lrs.length ≤ s.bktid) (hid : s.bktid < 2 ^ s.params.bktW) : bktPred s + 1 = s.bktid := by
  have hpos : 1 ≤ s.bktid := (by simp [hl] : 1 ≤ s.lrs.length).trans hdepth
  rw [bktPred_of_pos s hpos hid, Nat.sub_add_cancel hpos]

/-- A step keeps `BKTID` and `LRS` and begins no skip region, or it completes an executed instruction. -/
theorem step_brackets_or_completes (s t : State) (h : step s = .next t) :
    (t.bktid = s.bktid ∧ t.lrs = s.lrs ∧ t.bktctr ≤ s.bktctr) ∨
    ∃ i u n, Executes s i ∧ Completes s i u n ∧ t = commit u n := by
  obtain ⟨-, rfl⟩ | ⟨-, rfl⟩ | ⟨-, -, -, rfl⟩ | ⟨-, -, -, -, -, -, rfl⟩ |
    ⟨-, b, -, ⟨-, -, rfl⟩ | ⟨-, -, rfl⟩ | ⟨i, -, -, -, rfl⟩ | ⟨i, hx, -, -, hex⟩⟩ := step_next s t h
  · exact .inl ⟨rfl, rfl, le_rfl⟩
  · exact .inl ⟨rfl, rfl, le_rfl⟩
  · exact .inl ⟨rfl, rfl, le_rfl⟩
  · exact .inl ⟨rfl, rfl, le_rfl⟩
  · split <;> exact .inl ⟨rfl, rfl, le_rfl⟩
  · exact .inl ⟨rfl, rfl, le_rfl⟩
  · split
    · exact .inl ⟨rfl, rfl, Nat.sub_le _ _⟩
    · exact .inl ⟨rfl, rfl, le_rfl⟩
  · obtain ⟨c, -, rfl⟩ | ⟨u, n, hc, ht⟩ := exec_next i s t hex
    · exact .inl ⟨rfl, rfl, le_rfl⟩
    · exact .inr ⟨i, u, n, hx, hc, ht⟩

/-- A completion begins a skip region, or it changes `BKTID` and the depth of `LRS` alike and leaves `BKTCTR`. -/
theorem Completes.skips_or_balanced {s u : State} {i : Instr} {n : Nat} (h : Completes s i u n)
    (hdepth : s.lrs.length ≤ s.bktid) (hid : s.bktid < 2 ^ s.params.bktW) :
    (i = .loopstart ∧ s.readByte s.ptr = 0#8 ∧ u = { s with bktid := s.bktid + 1, bktctr := s.bktid + 1 }) ∨
    (u.bktctr = s.bktctr ∧ u.bktid + s.lrs.length = s.bktid + u.lrs.length) := by
  cases h with
  | skip _ hz => exact .inl ⟨rfl, hz, rfl⟩
  | enter => exact .inr ⟨rfl, Nat.succ_add_eq_add_succ _ _⟩
  | exit _ rest hl | back _ rest hl =>
    have hpred : bktPred s + 1 = s.bktid := bktPred_add_one s _ rest hl hdepth hid
    have hlen : s.lrs.length = rest.length + 1 := by rw [hl]; rfl
    refine .inr ⟨rfl, ?_⟩
    dsimp only
    omega
  | incp | decp | inc | dec | putchar | getchar | comment | newline | noop | pop | jump => exact .inr ⟨rfl, rfl⟩

/-- Settles O46: outside a skip region only a completion makes `BKTCTR` positive, and only that of `[` on a zero cell. -/
theorem bktidCountsDepthAndSkips : Obligations.BktidCountsDepthAndSkips := by
  intro s t hdepth hid h
  obtain ⟨hbktid, hlrs, hctr⟩ | ⟨i, u, n, hx, hc, rfl⟩ := step_brackets_or_completes s t h
  · exact ⟨fun hk hpos => by omega, fun _ => by rw [hbktid, hlrs]⟩
  · have hk : s.bktctr = 0 := hx.bktctr_eq_zero
    obtain ⟨rfl, hz, rfl⟩ | ⟨hctr, hsum⟩ := hc.skips_or_balanced hdepth hid
    · exact ⟨fun _ _ => ⟨hx, hz, rfl, rfl, rfl⟩, fun hno => absurd ⟨hk, Nat.succ_pos _⟩ hno⟩
    · exact ⟨fun _ hpos => absurd (hctr.trans hk) hpos.ne', fun _ => hsum⟩

/-! ### A taken `]` -/

/-- On a non-zero cell, with room in `BKTID` and on the stack, a step that executes `[` enters the loop. -/
theorem Executes.step_enters {s : State} (hx : Executes s .loopstart) (hid : s.bktid ≠ bktMax s)
    (hp : s.ptr < s.params.memSize) (hz : s.readByte s.ptr ≠ 0#8) (hroom : s.params.stackDepth ≠ some s.lrs.length) :
    step s = .next (advance { s with bktid := s.bktid + 1, lrs := s.pc :: s.lrs }) :=
  (step_of_executes s .loopstart hx).trans (execLoopstart_of_room s hid hp hz hroom)

/-- Settles O48: the popped entry is the address of a `[`, the cell is as it was, and the pop has left room for the push. -/
theorem takenLoopendReentersLoop : Obligations.TakenLoopendReentersLoop := by
  intro s t hs hen hx hz h
  rw [step_of_executes s .loopend hx] at h
  obtain ⟨-, rfl⟩ | ⟨a, rest, hl, hp, rfl⟩ := execLoopend_next s t h
  · exact .inl rfl
  · rw [if_neg hz]
    refine .inr ⟨a, rest, hl, rfl, rfl, ?_⟩
    have hentry : s.params.prog[a]? = some (encode .loopstart) := hs.lrs_entry a (by simp [hl])
    have hlt : a < s.pcend := hs.pcend_eq ▸ (List.getElem?_eq_some_iff.1 hentry).1
    have hback : Executes (commit { s with bktid := bktPred s, lrs := rest } a) .loopstart :=
      ⟨⟨nofun, nofun, hlt, by simp [hen]⟩, by simp [hx.comt_eq_false hs], hx.bktctr_eq_zero, _, hentry,
        decode_encode_of_wf rfl⟩
    have hpred : bktPred s + 1 = s.bktid := bktPred_add_one s a rest hl hs.depth_le hs.bktid_lt
    have hbelow : bktPred s ≠ 2 ^ s.params.bktW - 1 := by have := hs.bktid_lt; omega
    have hroom : s.params.stackDepth ≠ some rest.length := fun hd => by
      have hcap : s.lrs.length ≤ rest.length := hs.depth_cap _ hd
      simp [hl] at hcap
    refine (hback.step_enters hbelow hp hz hroom).trans ?_
    rw [← hpred, hl]
    rfl

/-! ### The nesting of the text -/

section
variable (ext : Bool) (prog : List Byte) (l : List Nat) (a : Nat)

theorem Scan.byte_in_comment (b : Byte) : Scan.byte ext ⟨l, true⟩ a b = ⟨l, b != 0x0A#8⟩ := rfl

theorem Scan.byte_loopstart : Scan.byte ext ⟨l, false⟩ a (encode .loopstart) = ⟨a :: l, false⟩ := rfl

theorem Scan.byte_loopend : Scan.byte ext ⟨l, false⟩ a (encode .loopend) = ⟨l.tail, false⟩ := rfl

theorem Scan.byte_comment : Scan.byte true ⟨l, false⟩ a (encode .comment) = ⟨l, true⟩ := rfl

/-- The other instructions leave open what was open. -/
theorem Scan.byte_other (i : Instr) (hi : i ≠ .loopstart ∧ i ≠ .loopend ∧ i ≠ .comment) :
    Scan.byte ext ⟨l, false⟩ a (encode i) = ⟨l, false⟩ := by
  cases i with
  | loopstart | loopend | comment => simp at hi
  | incp | decp | inc | dec | putchar | getchar | newline | wsTab | wsCr | wsSp | push | pop | jump | syscall =>
    simp [Scan.byte, encode]

/-- A byte leaves the open brackets, opens one at its own address, or closes the innermost one. -/
theorem Scan.byte_brackets (z : Scan) (b : Byte) :
    (Scan.byte ext z a b).brackets = z.brackets ∨
    (z.comment = false ∧ Scan.byte ext z a b = ⟨a :: z.brackets, false⟩) ∨
    (Scan.byte ext z a b).brackets = z.brackets.tail := by
  unfold Scan.byte
  split
  · exact .inl rfl
  · have hcomment : z.comment = false := by simpa using ‹¬z.comment = true›
    split
    · exact .inr (.inl ⟨hcomment, by rw [hcomment]⟩)
    · split
      · exact .inr (.inr rfl)
      · split
        · exact .inl rfl
        · exact .inl rfl

theorem scanText_succ (b : Byte) (hb : prog[a]? = some b) :
    scanText ext prog (a + 1) = Scan.byte ext (scanText ext prog a) a b := by
  simp only [scanText, hb]

/-- Without the extension set no text stands in a comment. -/
theorem scanText_comment_of_ext_off (n : Nat) : (scanText false prog n).comment = false := by
  induction n with
  | zero => rfl
  | succ n ih =>
    cases hb : prog[n]? with
    | none => simpa only [scanText, hb] using ih
    | some b =>
      rw [scanText_succ false prog n b hb]
      simp [Scan.byte, ih, apply_ite Scan.comment]

/-- The text before an open `[` leaves open just the brackets below it, outside any comment: by induction on the text,
for every open bracket and not for the innermost one alone, since a `]` uncovers the one below. -/
theorem scanText_at_open_bracket (n : Nat) (h : (a :: l) <:+ (scanText ext prog n).brackets) :
    scanText ext prog a = ⟨l, false⟩ := by
  induction n with
  | zero => simp [scanText] at h
  | succ n ih =>
    cases hb : prog[n]? with
    | none => exact ih (by simpa only [scanText, hb] using h)
    | some b =>
      rw [scanText_succ ext prog n b hb] at h
      obtain hkeep | ⟨hcomment, hopen⟩ | hclose := Scan.byte_brackets ext n (scanText ext prog n) b
      · exact ih (hkeep ▸ h)
      · rw [hopen] at h
        obtain heq | hbelow := List.suffix_cons_iff.1 h
        · obtain ⟨rfl, rfl⟩ := List.cons.inj heq
          rw [← hcomment]
        · exact ih hbelow
      · exact ih ((hclose ▸ h).trans (List.tail_suffix _))

end

section
variable {s t u : State} {i : Instr} {n : Nat}

/-- Where the text stands in a comment, the machine is in comment mode. -/
theorem NestedByText.comt_eq_false (h : NestedByText s) (hc : ¬(s.params.ext = true ∧ s.comt = true)) :
    s.comt = false := by
  obtain ⟨-, -, hscan⟩ := h
  cases hext : s.params.ext with
  | true => simpa [hext] using hc
  | false =>
    have hoff : (scanText false s.params.prog s.pc).comment = false := scanText_comment_of_ext_off _ _
    rw [hext] at hscan
    rw [hscan] at hoff
    exact hoff

/-- In comment mode the machine passes a byte as the reading of the text does. -/
theorem NestedByText.pass_in_comment (h : NestedByText s) (b : Byte) (hb : s.params.prog[s.pc]? = some b)
    (hc : s.comt = true) : NestedByText (advance (if b = 0x0A#8 then { s with comt := false } else s)) := by
  obtain ⟨hk, hdepth, hscan⟩ := h
  rw [hc] at hscan
  have hnext : scanText s.params.ext s.params.prog (s.pc + 1) = ⟨s.lrs, b != 0x0A#8⟩ := by
    rw [scanText_succ _ _ _ b hb, hscan, Scan.byte_in_comment]
  by_cases hlf : b = 0x0A#8
  · rw [if_pos hlf]
    exact ⟨hk, hdepth, hnext.trans (by simp [hlf])⟩
  · rw [if_neg hlf]
    exact ⟨hk, hdepth, hnext.trans (by simp [hlf, hc])⟩

/-- A completion other than that of `@`, and of `[` on a zero cell, does to the brackets what its byte does to the reading
of the text; where `]` goes back, the text before the popped address leaves open what the pop leaves. -/
theorem Completes.keeps_nestedByText (h : Completes s i u n) (hx : Executes s i) (hat : i ≠ .jump)
    (hcell : i = .loopstart → s.readByte s.ptr ≠ 0#8) (hid : s.bktid < 2 ^ s.params.bktW) (hs : NestedByText s) :
    NestedByText (commit u n) := by
  obtain ⟨hbyte, hwf⟩ := hx.byte_and_wf
  have hcomt : s.comt = false := by
    obtain ⟨-, hc, -⟩ := hx
    exact hs.comt_eq_false hc
  obtain ⟨hk, hdepth, hscan⟩ := hs
  rw [hcomt] at hscan
  have hnext : scanText s.params.ext s.params.prog (s.pc + 1) = Scan.byte s.params.ext ⟨s.lrs, false⟩ s.pc (encode i) := by
    rw [scanText_succ _ _ _ _ hbyte, hscan]
  cases h with
  | skip _ hz => exact absurd hz (hcell rfl)
  | jump => exact absurd rfl hat
  | enter =>
    refine ⟨hk, congrArg (· + 1) hdepth, ?_⟩
    exact hnext.trans (by rw [Scan.byte_loopstart, ← hcomt]; rfl)
  | exit a rest hl =>
    have hpred : bktPred s + 1 = s.bktid := bktPred_add_one s a rest hl hdepth.ge hid
    refine ⟨hk, Nat.succ.inj (hpred.trans (hdepth.trans (by rw [hl]; rfl))), ?_⟩
    exact hnext.trans (by rw [Scan.byte_loopend, hl, ← hcomt]; rfl)
  | back _ rest hl =>
    have hpred : bktPred s + 1 = s.bktid := bktPred_add_one s n rest hl hdepth.ge hid
    refine ⟨hk, Nat.succ.inj (hpred.trans (hdepth.trans (by rw [hl]; rfl))), ?_⟩
    have htop : (n :: rest) <:+ (scanText s.params.ext s.params.prog s.pc).brackets := by rw [hscan, hl]
    exact (scanText_at_open_bracket _ _ rest n s.pc htop).trans (by rw [← hcomt]; rfl)
  | comment =>
    have hext : s.params.ext = true := by simpa [Instr.wf, Instr.isCore] using hwf
    refine ⟨hk, hdepth, hnext.trans ?_⟩
    rw [hext, Scan.byte_comment]
    rfl
  | newline => exact ⟨hk, hdepth, hnext.trans (Scan.byte_other _ _ _ _ (by simp))⟩
  | noop _ hno =>
    refine ⟨hk, hdepth, hnext.trans ?_⟩
    rw [Scan.byte_other _ _ _ i (by obtain rfl | rfl | rfl | rfl | rfl := hno <;> simp), ← hcomt]
    rfl
  | incp | decp | inc | dec | putchar | getchar | pop =>
    exact ⟨hk, hdepth, hnext.trans (by rw [Scan.byte_other _ _ _ _ (by simp), ← hcomt]; rfl)⟩

end

/-- Settles O52: a step that executes no instruction passes a byte of a comment or stays in place, a fault stays in place,
and a completion follows the text. -/
theorem loopStackIsTextualNesting : Obligations.LoopStackIsTextualNesting := by
  intro s t hat hid hs hcell h
  obtain ⟨-, rfl⟩ | ⟨-, rfl⟩ | ⟨-, -, -, rfl⟩ | ⟨-, -, -, -, -, -, rfl⟩ |
    ⟨-, b, hb, ⟨-, hc, rfl⟩ | ⟨-, -, rfl⟩ | ⟨i, -, -, hk, -⟩ | ⟨i, hx, -, -, hex⟩⟩ := step_next s t h
  · exact hs
  · exact hs
  · exact hs
  · exact hs
  · exact hs.pass_in_comment b hb hc
  · exact hs
  · obtain ⟨hzero, -, -⟩ := hs
    exact absurd hzero hk.ne'
  · obtain ⟨c, -, rfl⟩ | ⟨u, n, hc, rfl⟩ := exec_next i s t hex
    · exact hs
    · have hjump : i ≠ .jump := by
        rintro rfl
        exact hat (List.mem_of_getElem? hx.byte_and_wf.1)
      exact hc.keeps_nestedByText hx hjump (fun hi => hcell (hi ▸ hx)) hid hs

end Sys2Proof.Machine
end

section
/-! PROOFS. The extension instructions (44_extension.md): what `#`, LF, the five no-ops, `)` and `@` answer, and the frame
of the nine (R150 to R159). -/

namespace Sys2Proof.Machine

/-! ### `#` and LF -/

/-- Settles O23: each writes its constant to `COMT` and advances. -/
theorem commentAndNewlineWriteComt : Obligations.CommentAndNewlineWriteComt :=
  ⟨rfl, rfl, fun _ => ⟨rfl, rfl⟩⟩

/-! ### The no-ops -/

/-- Every byte of the opcode map is a 7-bit code, so none has its top bit set (R155). -/
theorem activeRows_byte_lt (ext : Bool) : ∀ r ∈ activeRows ext, r.byte.toNat < 0x80 := by
  cases ext <;> decide

theorem decode_eq_invalid_of_le (ext : Bool) (b : Byte) (hb : 0x80 ≤ b.toNat) : decode ext b = .invalid := by
  refine (decode_eq_invalid_iff ext b).2 fun r hr heq => ?_
  subst heq
  exact absurd (activeRows_byte_lt ext r hr) (Nat.not_lt.2 hb)

/-- The five no-ops write nothing but what the commit writes (R153 to R156, R159). -/
theorem exec_noop (i : Instr) (s : State) (hi : i = .wsTab ∨ i = .wsCr ∨ i = .wsSp ∨ i = .push ∨ i = .syscall) :
    exec i s = .next (advance s) := by
  obtain rfl | rfl | rfl | rfl | rfl := hi <;> rfl

/-- Settles O24: the bytes are read off the opcode map, and the five instructions are the bare advance. -/
theorem noOpsOnlyAdvance : Obligations.NoOpsOnlyAdvance :=
  ⟨rfl, rfl, rfl, rfl, rfl, rfl, rfl, decode_eq_invalid_of_le, fun s i hi => exec_noop i s hi⟩

/-! ### `)` -/

theorem execPop_of_lt (s : State) (hp : s.ptr < s.params.memSize) :
    execPop s = .next (advance { s with ss := s.readByte s.ptr }) :=
  withCell_of_lt s _ hp

/-- Settles O25: with the current cell in memory, `)` loads it into `SS`. -/
theorem popLoadsSsFromCell : Obligations.PopLoadsSsFromCell :=
  ⟨rfl, execPop_of_lt⟩

/-! ### `@` -/

theorem jumpTarget_eq (s : State) (v : Byte) :
    jumpTarget s v = v.toNat + (if s.params.atPostinc = true then 1 else 0) :=
  congrArg (v.toNat + ·) (Bool.cond_eq_ite ..)

/-- A cell and one more: "the next `PC` is at most 256 whatever the program's length" (R158). -/
theorem jumpTarget_le (s : State) (v : Byte) : jumpTarget s v ≤ 256 := by
  have hcell : v.toNat < 256 := v.isLt
  have hinc : s.params.atPostinc.toNat ≤ 1 := Bool.toNat_le _
  unfold jumpTarget
  omega

theorem execJump_of_gt (s : State) (hp : s.ptr < s.params.memSize) (hgt : s.pcend < jumpTarget s (s.readByte s.ptr)) :
    execJump s = .next (raise .jumpRange s.pc 0x40 s) :=
  (withCell_of_lt s _ hp).trans (if_pos hgt)

theorem execJump_of_le (s : State) (hp : s.ptr < s.params.memSize) (hle : jumpTarget s (s.readByte s.ptr) ≤ s.pcend) :
    execJump s = .next (commit s (jumpTarget s (s.readByte s.ptr))) :=
  (withCell_of_lt s _ hp).trans (if_neg (Nat.not_lt.2 hle))

/-- Settles O26: `t` is the target of `@`, and the test against `PCEND` decides between the fault entry and the jump. -/
theorem jumpGoesToCellOrFaults : Obligations.JumpGoesToCellOrFaults := by
  refine ⟨rfl, fun s t hp ht => ?_⟩
  obtain rfl : t = jumpTarget s (s.readByte s.ptr) := ht.trans (jumpTarget_eq s _).symm
  exact ⟨jumpTarget_le s _, execJump_of_gt s hp, execJump_of_le s hp⟩

/-! ### The frame of the nine instructions -/

/-- An extension instruction commits with `COMT` and `SS` alone written, `COMT` by `#` and LF, `SS` by `)`, and only `@`
assigns `pc`; or it is `@` and raises its fault. -/
theorem exec_extension (i : Instr) (s t : State) (hi : i.isCore = false) (h : exec i s = .next t) :
    (i = .jump ∧ t = raise .jumpRange s.pc 0x40 s) ∨
    ∃ c x n, t = commit { s with comt := c, ss := x } n ∧ (i ≠ .comment → i ≠ .newline → c = s.comt) ∧
      (i ≠ .pop → x = s.ss) ∧ (i ≠ .jump → n = s.pc + 1) := by
  obtain ⟨c, hc, rfl⟩ | ⟨u, n, hc, rfl⟩ := exec_next i s t h
  · cases hc with
    | jump => exact .inl ⟨rfl, rfl⟩
    | incp | decp | depth | stack | underflow => cases hi
  · refine .inr ?_
    cases hc with
    | comment => exact ⟨_, _, _, rfl, fun hne => absurd rfl hne, fun _ => rfl, fun _ => rfl⟩
    | newline => exact ⟨_, _, _, rfl, fun _ hne => absurd rfl hne, fun _ => rfl, fun _ => rfl⟩
    | noop => exact ⟨s.comt, s.ss, _, rfl, fun _ _ => rfl, fun _ => rfl, fun _ => rfl⟩
    | pop => exact ⟨_, _, _, rfl, fun _ _ => rfl, fun hne => absurd rfl hne, fun _ => rfl⟩
    | jump => exact ⟨s.comt, s.ss, _, rfl, fun _ _ => rfl, fun _ => rfl, fun hne => absurd rfl hne⟩
    | incp | decp | inc | dec | putchar | getchar | skip | enter | exit | back => cases hi

/-- Settles O31: the fault entry of `@` writes none of these, and a commit only what its instruction may write. -/
theorem frameOfExtensionSet : Obligations.FrameOfExtensionSet := by
  intro i s t hi h
  obtain ⟨rfl, rfl⟩ | ⟨c, x, n, rfl, hcomt, hss, hpc⟩ := exec_extension i s t hi h
  · exact ⟨⟨rfl, rfl, rfl, rfl⟩, ⟨rfl, rfl, rfl⟩, fun _ => rfl, ⟨rfl, rfl, rfl⟩, rfl, .inr ⟨rfl, rfl, rfl, rfl⟩,
      fun _ _ => rfl, fun _ => rfl, fun hne => absurd rfl hne⟩
  · exact ⟨⟨rfl, rfl, rfl, rfl⟩, ⟨rfl, rfl, rfl⟩, fun _ => rfl, ⟨rfl, rfl, rfl⟩, rfl, .inl ⟨rfl, rfl, rfl, rfl, rfl⟩,
      hcomt, hss, hpc⟩

end Sys2Proof.Machine
end

section
/-! PROOFS. The host interface (45_host_interface.md): the events of a step, the integer of an Input call, `RUN`, and the
two breakpoint commands (R174, R176 to R179). -/

namespace Sys2Proof.Machine

/-! ### The callbacks -/

/-- Settles O43: the integer of the one `In` event is the next answer. -/
theorem eventsComeFromIoOnly : Obligations.EventsComeFromIoOnly := by
  intro s t h
  obtain hsame | hout | ⟨hx, hin, hev⟩ := step_events s t h
  · exact .inl hsame
  · exact .inr (.inl hout)
  · exact .inr (.inr ⟨hx, hin, _, hev⟩)

theorem nextAnswer_of_cons (s : State) (i : Int) (rest : List Int) (h : s.port.answers = i :: rest) :
    nextAnswer s = i := by
  simp [nextAnswer, h]

theorem nextAnswer_of_nil (s : State) (h : s.port.answers = []) : nextAnswer s = Config.inAnswer s.port.inCalls := by
  simp [nextAnswer, h]

/-- With the slot set, `,` takes one answer off the list, counts the call and adds its event (R178). -/
theorem execGetchar_port (s t : State) (hin : s.params.inPresent = true) (h : execGetchar s = .next t) :
    t.port = { answers := s.port.answers.tail, inCalls := s.port.inCalls + 1
               events := s.port.events ++ [.input (nextAnswer s) s.view], result := .cont } := by
  obtain ⟨-, rfl⟩ := execGetchar_next s t h
  rw [callIn_of_present s hin]
  rfl

/-- Settles O20: the list of answers decides what the next answer is. -/
theorem inputAnswerIsListedOrFree : Obligations.InputAnswerIsListedOrFree := by
  intro s t hin h
  rw [execGetchar_port s t hin h]
  refine ⟨fun i rest hans => ?_, fun hans => ?_⟩
  · rw [nextAnswer_of_cons s i rest hans, hans]; rfl
  · rw [nextAnswer_of_nil s hans, hans]; rfl

/-! ### `RUN` -/

section
variable {s t : State}

theorem runFuel_of_stop (n : Nat) (h : step s = .next t) (hr : t.port.result ≠ .cont) :
    runFuel (n + 1) s = some (.next t) := by
  simp [runFuel, h, hr]

theorem runFuel_of_cont (n : Nat) (h : step s = .next t) (hr : t.port.result = .cont) :
    runFuel (n + 1) s = runFuel n t := by
  simp [runFuel, h, hr]

/-- What a `RUN` with fuel answers is reached by repeating `STEP`, by induction on the fuel. -/
theorem runsTo_of_runFuel (n : Nat) (h : runFuel n s = some (.next t)) : RunsTo s t := by
  induction n generalizing s with
  | zero => cases h
  | succ n ih =>
    cases hstep : step s with
    | next u =>
      by_cases hr : u.port.result = .cont
      · exact .more hstep hr (ih ((runFuel_of_cont n hstep hr).symm.trans h))
      · cases (runFuel_of_stop n hstep hr).symm.trans h
        exact .stop hstep hr
    | fault r | refused r => simp [runFuel, hstep] at h

/-- As many units of fuel as the run has steps are enough, by induction on the run. -/
theorem RunsTo.exists_fuel (h : RunsTo s t) : ∃ n, runFuel n s = some (.next t) := by
  induction h with
  | stop hstep hr => exact ⟨1, runFuel_of_stop 0 hstep hr⟩
  | more hstep hr _ ih =>
    obtain ⟨n, hn⟩ := ih
    exact ⟨n + 1, (runFuel_of_cont n hstep hr).trans hn⟩

theorem RunsTo.result_ne_cont (h : RunsTo s t) : t.port.result ≠ .cont := by
  induction h with
  | stop _ hr => exact hr
  | more _ _ _ ih => exact ih

end

/-- Settles O57: the function with fuel and the relation take the same steps. -/
theorem runIsRepeatedStep : Obligations.RunIsRepeatedStep :=
  fun _ _ => ⟨⟨fun ⟨n, hn⟩ => runsTo_of_runFuel n hn, RunsTo.exists_fuel⟩, RunsTo.result_ne_cont⟩

/-! ### The breakpoint commands -/

theorem issue_setBkpt_of_lt (fuel a : Nat) (s : State) (ha : a < 2 ^ s.params.pcW) :
    issue fuel (.setBkpt a) s = some (.next (setBkpt a s)) :=
  if_pos ha

/-- A step that breaks stands at the breakpoint, and not at `PCEND` (R92, R93). -/
theorem at_bkpt_of_brk (s t : State) (p : Nat) (h : step s = .next t) (hr : t.port.result = .brk p) :
    s.pc ≠ s.pcend ∧ s.pc = s.bkpt := by
  obtain ⟨-, -, -, hbrk⟩ := breakpointTestBeforeFetch s
  obtain ⟨hpc, -, hat⟩ := hbrk t p h hr
  exact ⟨hpc, hat⟩

/-- Settles O56: below `PCEND = PROG_LEN` no `PC` is a breakpoint of `PROG_LEN` or more. -/
theorem breakpointCommandsWriteBkptOnly : Obligations.BreakpointCommandsWriteBkptOnly := by
  refine fun s => ⟨fun a fuel => issue_setBkpt_of_lt fuel a s, fun _ => rfl, fun a t p hend hle hlen h hr => ?_⟩
  obtain ⟨hpc, hat⟩ : s.pc ≠ s.pcend ∧ s.pc = a := at_bkpt_of_brk (setBkpt a s) t p h hr
  omega

end Sys2Proof.Machine
end

section
/-! PROOFS. Entry into `Faulted` and `BreakpointHit`, and the way on from each: a fault is precise and is repeated until
`INIT`, a break is passed by the next step (60_exceptions.md R201 to R207). -/

namespace Sys2Proof.Machine

/-! ### `Break` -/

/-- A step that breaks writes `MODE` and the result, and its argument is `PC` (R93, R201). -/
theorem step_brk (s t : State) (p : Nat) (h : step s = .next t) (hr : t.port.result = .brk p) :
    p = s.pc ∧ t = withResult { s with mode := .breakpointHit } (.brk s.pc) := by
  cases step_leaves s t h with
  | brk => cases hr; exact ⟨rfl, rfl⟩
  | cont _ _ hcont => cases hcont.symm.trans hr
  | refused | faultAgain | halt | fault => cases hr

/-- From `BreakpointHit` a step skips the breakpoint test, and where it continues it leaves that mode (R100, R202). -/
theorem step_of_breakpointHit (s t : State) (hm : s.mode = .breakpointHit) (h : step s = .next t) :
    (∀ q, t.port.result ≠ .brk q) ∧ (t.port.result = .cont → t.mode = .running) := by
  cases step_leaves s t h with
  | brk _ _ _ hne => exact absurd hm hne
  | cont _ hrun hcont => rw [hcont]; exact ⟨nofun, fun _ => hrun⟩
  | refused | faultAgain | halt | fault => exact ⟨nofun, nofun⟩

/-- Settles O8: the break leaves `BreakpointHit`, and the next step starts there. -/
theorem breakOncePerPass : Obligations.BreakOncePerPass := by
  intro s t u p h hr hu
  obtain ⟨hp, rfl⟩ := step_brk s t p h hr
  exact ⟨hp, rfl, fun _ => rfl, step_of_breakpointHit _ u rfl hu⟩

/-! ### `Fault` -/

/-- Settles O38: an instruction that completes ends in `Running`, so one that ends in `Faulted` is a fault entry. -/
theorem faultEntryIsPrecise : Obligations.FaultEntryIsPrecise := by
  refine ⟨fun _ _ _ _ => rfl, fun i s t h hm => ?_⟩
  obtain ⟨hrun, -, -⟩ | ⟨c, -, rfl⟩ := exec_completes_or_raises i s t h
  · cases hrun.symm.trans hm
  · rfl

/-- The first step from `Faulted` writes the recorded fault as the result, and each later one writes it again. -/
theorem run_of_faulted (n : Nat) (s : State) (hm : s.mode = .faulted) :
    Host.Core.run core (n + 1) s = .next (withResult s (.fault s.fcause s.fpc s.fval)) := by
  induction n generalizing s with
  | zero => exact run_succ_of_next 0 s _ (step_of_faulted s hm)
  | succ n ih =>
    rw [run_succ_of_next (n + 1) s _ (step_of_faulted s hm)]
    exact ih (withResult s (.fault s.fcause s.fpc s.fval)) hm

/-- Settles O39: a fault is no `Continue`, so `RUN` stops on its first step; the breakpoint commands do not write `MODE`. -/
theorem faultedIsAbsorbing : Obligations.FaultedIsAbsorbing := by
  intro s hm
  exact ⟨fun n => run_of_faulted n s hm, fun n => runFuel_of_stop n (step_of_faulted s hm) nofun, fun _ => hm, hm⟩

end Sys2Proof.Machine
end

section
/-! PROOFS. Power-on, construction and `INIT` (45_host_interface.md R182; 70_reset_and_hazards.md R230, R231, R233). -/

namespace Sys2Proof.Machine

/-- With no cell listed every cell reads as zero (10_state.md R34). -/
theorem readByte_of_mem_nil (s : State) (h : s.mem = []) (a : Nat) : s.readByte a = 0#8 := by
  rw [State.readByte, h, Memory.read_nil]

/-! ### `INIT` -/

/-- After `INIT` the machine is `Ready` at address 0, which is not `PCEND` unless the program is empty: the first step
reaches the breakpoint test (R92, R93, R231). -/
theorem step_init_of_breakpoint (s : State) (hen : s.bkptEn = true) (hat : s.bkpt = 0) (hlen : 0 < s.params.progLen) :
    step (init s) = .next (withResult { init s with mode := .breakpointHit } (.brk 0)) :=
  step_of_breakpoint (init s) nofun nofun nofun (Nat.ne_of_lt hlen) hen hat.symm

/-- Settles O54: the fields are those `INIT` writes, and its first step meets the breakpoint at address 0. -/
theorem initWritesEveryRegisterButBkpt : Obligations.InitWritesEveryRegisterButBkpt :=
  fun s => ⟨rfl, readByte_of_mem_nil (init s) rfl, rfl, rfl, rfl, step_init_of_breakpoint s⟩

/-! ### Power-on and construction -/

@[simp] theorem powerOn_params (p : Params) (u : State) : (powerOn p u).params = p := rfl
@[simp] theorem powerOn_mode (p : Params) (u : State) : (powerOn p u).mode = .uninitialized := rfl
@[simp] theorem powerOn_mem (p : Params) (u : State) : (powerOn p u).mem = [] := rfl
@[simp] theorem powerOn_bkptEn (p : Params) (u : State) : (powerOn p u).bkptEn = false := rfl

/-- The mode gate refuses the first step after power-on, and that step writes the result only (R91, R230). -/
theorem step_powerOn (p : Params) (u : State) : step (powerOn p u) = .next (withResult (powerOn p u) .refused) :=
  step_of_uninitialized (powerOn p u) (powerOn_mode p u)

/-- Of the state found at power-on, construction keeps `BKPT` and the port only, and writes the result (R230, R231,
R233). -/
theorem construct_congr (p : Params) (u v : State) (hbkpt : u.bkpt = v.bkpt) (hans : u.port.answers = v.port.answers)
    (hcalls : u.port.inCalls = v.port.inCalls) (hevents : u.port.events = v.port.events) :
    construct p u = construct p v := by
  simp [construct, powerOn, init, withResult, hbkpt, hans, hcalls, hevents]

/-- `State.reset` is what construction with the default parameters makes of it. -/
theorem construct_reset : construct {} State.reset = State.reset := rfl

/-- Settles O55: `State.reset` is a fixed point of its construction, which reads `BKPT` and the port only. -/
theorem powerOnThenInitConstructs : Obligations.PowerOnThenInitConstructs := by
  refine ⟨fun p u => ?_, fun _ _ => ⟨rfl, rfl, rfl⟩, fun u hbkpt hans hcalls hevents => ?_⟩
  · exact ⟨powerOn_mode p u, powerOn_bkptEn p u, powerOn_params p u, readByte_of_mem_nil _ (powerOn_mem p u),
      step_powerOn p u⟩
  · calc construct {} u
      _ = construct {} State.reset := construct_congr {} u State.reset hbkpt hans hcalls hevents
      _ = State.reset := construct_reset

end Sys2Proof.Machine
end
